-- ==== Sys2Proof/Word.lean ====
section
/-! DEFINITION. The one word type of the machine: the byte (00_scope.md section 5, "A byte is an unsigned integer in
0..255, equivalently an 8-bit vector"). Registers, memory cells, operand bytes and FL are all bytes (R22, R36, R33). -/

namespace Sys2Proof

/-- A byte: bit 0 is the least significant, bit 7 the most significant. -/
abbrev Byte := BitVec 8

/-- The index of a register of the file: 0..7 (R22, R26). -/
abbrev RegIdx := Fin 8

end Sys2Proof
end

