-- ==== Sys2Proof/Config.lean ====
section
/-! DEFINITION. The implementation parameters of 00_scope.md section 4 and the construction values of 10_state.md
section 10, each under the spec's name. `OPCODE_MAP` (R5) is `opcodeMap` of Decode.lean and `EXT_ENABLED` (R3) is a
field of State, since the spec leaves it open. -/

namespace Sys2Proof.Config

/-- `MEM_SIZE` (R1): the number of byte cells. -/
def memSize : Nat := 256

/-- `SP_INDEX` (R2): the stack pointer is the last register. -/
def spIndex : RegIdx := 7

/-- The spec's value of the parameter `SP_RESET` (R4, R28, D4): register 7 at construction. `State.construct` takes the
parameter. UNVERIFIED: the spec takes the value from the LS-8 family, log 5. -/
def spReset : Byte := 0xF4#8

/-- Registers 0 to 6 at construction (R28, D5). UNVERIFIED against the source, log 4. -/
def gprReset : Byte := 0#8

/-- The program counter at construction (R30, D6). UNVERIFIED against the source, log 6. -/
def pcReset : Nat := 0

/-- FL at construction (R33, D16). UNVERIFIED against the source, log 7. -/
def flReset : Byte := 0#8

/-- What a cell reads as that nothing has written: memory is pre-zeroed (R36, R60). -/
def memBlank : Byte := 0#8

/-- The default of `EXT_ENABLED` (R3, D14: "the conservative default is `false`"), log 1. -/
def extEnabledDefault : Bool := false

end Sys2Proof.Config
end

