-- ==== Sys2Proof/Syntax.lean ====
section
/-! DEFINITION. The instructions: one constructor per row of spec/opcode_table.json (R76 and R78). A register operand is
the WHOLE operand byte, as the decoder leaves it: R75 checks it where the instruction uses it. -/

namespace Sys2Proof

/-- The instructions of both profiles, with their operand bytes in the order they follow the opcode (R73). -/
inductive Instr where
  /-- HLT (R110). -/
  | hlt
  /-- LDI r, i (R130): the one instruction with an immediate. -/
  | ldi (r i : Byte)
  /-- PRN r (R133). -/
  | prn (r : Byte)
  /-- ADD a, b (R155). -/
  | add (a b : Byte)
  /-- MUL a, b (R157). -/
  | mul (a b : Byte)
  /-- PUSH r (R200). -/
  | push (r : Byte)
  /-- POP r (R203). -/
  | pop (r : Byte)
  /-- CALL r (R222). -/
  | call (r : Byte)
  /-- RET (R225). -/
  | ret
  /-- SUB a, b (R160, EXT). -/
  | sub (a b : Byte)
  /-- CMP a, b (R164, EXT). -/
  | cmp (a b : Byte)
  /-- AND a, b (R167, EXT). -/
  | and (a b : Byte)
  /-- OR a, b (R169, EXT). -/
  | or (a b : Byte)
  /-- XOR a, b (R171, EXT). -/
  | xor (a b : Byte)
  /-- NOT a (R173, EXT). -/
  | not (a : Byte)
  /-- SHL a, b (R176, EXT). -/
  | shl (a b : Byte)
  /-- SHR a, b (R179, EXT). -/
  | shr (a b : Byte)
  /-- JMP r (R230, EXT). -/
  | jmp (r : Byte)
  /-- JEQ r (R233, EXT). -/
  | jeq (r : Byte)
  /-- JNE r (R236, EXT). -/
  | jne (r : Byte)
deriving DecidableEq, Repr

/-- The mnemonics of the opcode table: what the decoder's descriptor names (R79) and dispatch goes by (R104). -/
inductive Mnemonic where
  | hlt | ldi | prn | add | mul | push | pop | call | ret
  | sub | cmp | and | or | xor | not | shl | shr | jmp | jeq | jne
deriving DecidableEq, Repr

/-- The nine instructions of the base profile (R76). -/
def Mnemonic.baseList : List Mnemonic := [.hlt, .ldi, .prn, .add, .mul, .push, .pop, .call, .ret]

/-- The eleven instructions of the EXT profile (R78). -/
def Mnemonic.extList : List Mnemonic :=
  [.sub, .cmp, .and, .or, .xor, .not, .shl, .shr, .jmp, .jeq, .jne]

/-- Is the mnemonic one of the EXT profile (R78)? -/
def Mnemonic.isExt : Mnemonic → Bool
  | .hlt | .ldi | .prn | .add | .mul | .push | .pop | .call | .ret => false
  | .sub | .cmp | .and | .or | .xor | .not | .shl | .shr | .jmp | .jeq | .jne => true

/-- The four formats (R73). -/
inductive Format where
  /-- no operand byte -/
  | z
  /-- one register byte -/
  | r
  /-- two register bytes, the destination first -/
  | rr
  /-- a register byte, then an immediate byte -/
  | ri
deriving DecidableEq, Repr

/-- Each mnemonic's format (R73). -/
def Mnemonic.format : Mnemonic → Format
  | .hlt | .ret => .z
  | .prn | .push | .pop | .call | .not | .jmp | .jeq | .jne => .r
  | .add | .mul | .sub | .cmp | .and | .or | .xor | .shl | .shr => .rr
  | .ldi => .ri

/-- How many operand bytes a format has (R70, R73). -/
def Format.operandCount : Format → Nat
  | .z => 0
  | .r => 1
  | .rr | .ri => 2

/-- The ALU's operation tags (R151): a closed enumeration. -/
inductive AluOp where
  | add | mul | sub | cmp | and | or | xor | not | shl | shr
deriving DecidableEq, Repr

/-- The mnemonic of an instruction. -/
def Instr.mnemonic : Instr → Mnemonic
  | .hlt => .hlt
  | .ldi _ _ => .ldi
  | .prn _ => .prn
  | .add _ _ => .add
  | .mul _ _ => .mul
  | .push _ => .push
  | .pop _ => .pop
  | .call _ => .call
  | .ret => .ret
  | .sub _ _ => .sub
  | .cmp _ _ => .cmp
  | .and _ _ => .and
  | .or _ _ => .or
  | .xor _ _ => .xor
  | .not _ => .not
  | .shl _ _ => .shl
  | .shr _ _ => .shr
  | .jmp _ => .jmp
  | .jeq _ => .jeq
  | .jne _ => .jne

/-- The operand bytes, in the order they follow the opcode (R72, R73). -/
def Instr.operandBytes : Instr → List Byte
  | .hlt | .ret => []
  | .ldi r i => [r, i]
  | .prn r | .push r | .pop r | .call r | .not r | .jmp r | .jeq r | .jne r => [r]
  | .add a b | .mul a b | .sub a b | .cmp a b | .and a b | .or a b | .xor a b | .shl a b | .shr a b => [a, b]

/-- The operand bytes the instruction uses as register indices, in the order R258 checks them (R73, R75): all of them
but LDI's immediate. -/
def Instr.regOperands : Instr → List Byte
  | .hlt | .ret => []
  | .ldi r _ => [r]
  | .prn r | .push r | .pop r | .call r | .not r | .jmp r | .jeq r | .jne r => [r]
  | .add a b | .mul a b | .sub a b | .cmp a b | .and a b | .or a b | .xor a b | .shl a b | .shr a b => [a, b]

/-- Does the instruction exist in the profile (R3, R76, R78)? -/
def Instr.available (ext : Bool) (i : Instr) : Bool := ext || !i.mnemonic.isExt

end Sys2Proof
end

