-- ==== Sys2Proof/WellFormed.lean ====
section
/-! DEFINITION. Which instruction terms are well formed in a profile: the instruction is in the active map (R3, R79) and
every operand byte it uses as a register index names a register (R26; spec/opcode_table.json, "must be < 8"). An
ill-formed term still has a meaning: the fault the spec names (R80, R26). -/

namespace Sys2Proof

/-- A register index is valid iff it is in 0..7 (R26). -/
def validReg (i : Byte) : Bool := decide (i.toNat < 8)

/-- Every register operand names a register (R26, R75). -/
def Instr.regsValid (i : Instr) : Bool := i.regOperands.all validReg

/-- Well formed under the profile `ext`. -/
def Instr.wellFormed (ext : Bool) (i : Instr) : Bool := i.available ext && i.regsValid

end Sys2Proof
end

