-- ==== Sys2Proof/Decode.lean ====
section
/-! DEFINITION. The opcode map, the decoder (total on any bytes, rejecting by name), and the encoder written from the same
map (30_encoding.md). -/

namespace Sys2Proof

/-- `OPCODE_MAP` (R5): the table from mnemonic to opcode byte, R76 (base) and R78 (EXT). The byte values are the spec's
decisions D1 and D15, UNVERIFIED against the source, log 8; a corrected map changes this table alone. -/
def opcodeMap : Mnemonic → Byte
  | .hlt => 0x01#8
  | .ldi => 0x82#8
  | .prn => 0x47#8
  | .add => 0xA0#8
  | .mul => 0xA2#8
  | .push => 0x45#8
  | .pop => 0x46#8
  | .call => 0x50#8
  | .ret => 0x11#8
  | .sub => 0xA1#8
  | .cmp => 0xA7#8
  | .and => 0xA8#8
  | .or => 0xAA#8
  | .xor => 0xAB#8
  | .not => 0x69#8
  | .shl => 0xAC#8
  | .shr => 0xAD#8
  | .jmp => 0x54#8
  | .jeq => 0x55#8
  | .jne => 0x56#8

/-- The mnemonics of the active map: R76, plus R78 when `EXT_ENABLED` (R3, R79). -/
def activeMap (ext : Bool) : List Mnemonic :=
  if ext then Mnemonic.baseList ++ Mnemonic.extList else Mnemonic.baseList

/-- Field AA of an opcode byte, bits 7..6: the operand count (R71). -/
def fieldAA (b : Byte) : Nat := (b.extractLsb' 6 2).toNat

/-- Field B, bit 5: the instruction routes through the ALU (R71). -/
def fieldB (b : Byte) : Bool := b.getLsbD 5

/-- Field C, bit 4: the instruction sets pc itself (R71); informational (R84). -/
def fieldC (b : Byte) : Bool := b.getLsbD 4

/-- Field DDDD, bits 3..0: the identifier within the (AA, B, C) group (R71). -/
def fieldDDDD (b : Byte) : Nat := (b.extractLsb' 0 4).toNat

/-- What the decoder reads from an opcode byte (R79). -/
structure Descriptor where
  mnemonic : Mnemonic
  operandCount : Nat
  isALUOp : Bool
deriving DecidableEq, Repr

/-- `decode(opcodeByte) -> {mnemonic, operandCount, isALUOp}` (R79): the whole byte is compared with the active map;
`none` is an unknown opcode (R80). -/
def decodeOpcode (ext : Bool) (b : Byte) : Option Descriptor :=
  ((activeMap ext).find? fun m => opcodeMap m == b).map fun m => ⟨m, fieldAA b, fieldB b⟩

/-- The bytes after the opcode: `op0`, `op1` and the bytes that follow the instruction (R72). An operand byte beyond the
count is not referenced (R82); 0 stands in its place. -/
def takeOperands : Nat → List Byte → Option (Byte × Byte × List Byte)
  | 0, rest => some (0#8, 0#8, rest)
  | 1, op0 :: rest => some (op0, 0#8, rest)
  | 2, op0 :: op1 :: rest => some (op0, op1, rest)
  | _, _ => none

/-- The instruction a mnemonic and its operand bytes make (R73). -/
def Mnemonic.build (op0 op1 : Byte) : Mnemonic → Instr
  | .hlt => .hlt
  | .ldi => .ldi op0 op1
  | .prn => .prn op0
  | .add => .add op0 op1
  | .mul => .mul op0 op1
  | .push => .push op0
  | .pop => .pop op0
  | .call => .call op0
  | .ret => .ret
  | .sub => .sub op0 op1
  | .cmp => .cmp op0 op1
  | .and => .and op0 op1
  | .or => .or op0 op1
  | .xor => .xor op0 op1
  | .not => .not op0
  | .shl => .shl op0 op1
  | .shr => .shr op0 op1
  | .jmp => .jmp op0
  | .jeq => .jeq op0
  | .jne => .jne op0

/-- Why bytes are no instruction. -/
inductive DecodeReject where
  /-- there is no byte to decode (never from a fetch window, which has three) -/
  | noBytes
  /-- the opcode is not in the active map (R80) -/
  | unknownOpcode (b : Byte)
  /-- an operand byte is missing (never from a fetch window) -/
  | missingOperand (b : Byte)
deriving DecidableEq, Repr

/-- The decoder on any bytes: the first instruction and the bytes after it, or the reason there is none. Only the opcode
is checked; a register operand is not (R75). -/
def decode (ext : Bool) : List Byte → Except DecodeReject (Instr × List Byte)
  | [] => .error .noBytes
  | b :: rest =>
    match decodeOpcode ext b with
    | none => .error (.unknownOpcode b)
    | some d =>
      match takeOperands d.operandCount rest with
      | none => .error (.missingOperand b)
      | some (op0, op1, after) => .ok (d.mnemonic.build op0 op1, after)

/-- The bytes of an instruction: its opcode, then its operand bytes at increasing addresses (R70, R72, R73). -/
def encode (i : Instr) : List Byte := opcodeMap i.mnemonic :: i.operandBytes

/-- The length in bytes of an instruction: `1 + operandCount` (R70, R83). -/
def instrLength (m : Mnemonic) : Nat := 1 + fieldAA (opcodeMap m)

/-- The three bytes at the host's table word `w` of `nbits` bits: bits 7..0 are the byte at the lowest address, and every
bit at `nbits` and above is 0. Three bytes are the longest instruction (R70). -/
def tableByte (nbits w k : Nat) : Byte := BitVec.ofNat 8 (w % 2 ^ nbits / 256 ^ k)

/-- The instruction the decoder reads from a table word. The word carries no profile, and the table lists both: this
reads it with the EXT map active (R79; log 9). -/
def decodeTableWord (nbits w : Nat) : Option Instr :=
  match decode true [tableByte nbits w 0, tableByte nbits w 1, tableByte nbits w 2] with
  | .ok (i, _) => some i
  | .error _ => none

/-- The mnemonic as the source writes it (R85). -/
def Mnemonic.text : Mnemonic → String
  | .hlt => "HLT"
  | .ldi => "LDI"
  | .prn => "PRN"
  | .add => "ADD"
  | .mul => "MUL"
  | .push => "PUSH"
  | .pop => "POP"
  | .call => "CALL"
  | .ret => "RET"
  | .sub => "SUB"
  | .cmp => "CMP"
  | .and => "AND"
  | .or => "OR"
  | .xor => "XOR"
  | .not => "NOT"
  | .shl => "SHL"
  | .shr => "SHR"
  | .jmp => "JMP"
  | .jeq => "JEQ"
  | .jne => "JNE"

/-- An instruction in the assembly form of R85: `LDI R0,8`, `ADD R0,R1`, `PUSH R0`, `HLT`; immediates in decimal.
DESIGN CHOICE: R85 names only `R0` to `R7`; a register byte of 8 or more is written in the same way, such as `R200` (log 22). -/
def Instr.text (i : Instr) : String :=
  let reg (b : Byte) := "R" ++ toString b.toNat
  match i.mnemonic.format, i.operandBytes with
  | .r, [r] => i.mnemonic.text ++ " " ++ reg r
  | .rr, [a, b] => i.mnemonic.text ++ " " ++ reg a ++ "," ++ reg b
  | .ri, [r, imm] => i.mnemonic.text ++ " " ++ reg r ++ "," ++ toString imm.toNat
  | _, _ => i.mnemonic.text

end Sys2Proof
end

