-- ==== Sys2Proof/Machine/State.lean ====
section
/-! DEFINITION. The state of the machine as plain data (10_state.md), the reasons a step can stop (60_exceptions.md), and
the state right after construction, the only reset (R280). -/

namespace Sys2Proof.Machine

/-- The detail of an AddressError (R250). -/
inductive AddressDetail where
  /-- an operand byte `i >= 8` used as a register index -/
  | register (i : Byte)
  /-- an address `a >= MEM_SIZE` -/
  | memory (a : Nat)
deriving DecidableEq, Repr

/-- A fault with its record (R252): the kind is the constructor, then `pc`, the opcode (absent where the fetch window was
not read), and the detail. Every fault is the spec's own: it ends the run (R254), so it is safe in the log's sense. -/
inductive Fault where
  /-- AddressError (R250). Raised by the fetch window (R102, no opcode), by every instruction that uses an operand byte
  `>= 8` as a register index (R26), and by a stack access outside memory (R51). Safe: the spec stops here. -/
  | addressError (pc : Nat) (opcode : Option Byte) (detail : AddressDetail)
  /-- UnknownOpcodeError (R251). Raised by the step that fetches a byte outside the active map (R80), and by an EXT
  instruction in the base profile (R160, R230). The opcode is the detail. Safe: the spec stops here. -/
  | unknownOpcode (pc : Nat) (opcode : Byte)
  /-- UnsupportedOperationError (R253). Raised by the ALU's own interface for a tag outside its profile (R151); no
  instruction can raise it. Safe: the spec stops here. -/
  | unsupportedOperation (pc : Nat) (opcode : Option Byte) (tag : AluOp)
deriving DecidableEq, Repr

/-- Why a step has no meaning. -/
inductive Refusal where
  /-- Raised by an arm of `exec` whose instruction has no meaning yet. Safe. No arm of this model raises it. -/
  | notModelled (mnemonic : String)
deriving DecidableEq, Repr

/-- Memory as data (R36): pairs of an address and the byte it holds. -/
abbrev Memory := List Host.Cell

/-- The architectural state (R20, R21). -/
structure State where
  /-- The register file (R22): `x[7]` is SP (R23). -/
  x : Vector Byte 8
  /-- The program counter, a natural number that does not wrap (R29, R30). -/
  pc : Nat
  /-- Set by HLT alone (R34). -/
  halted : Bool
  /-- Memory (R36) in canonical form: addresses strictly rising, no cell that holds `Config.memBlank`. -/
  mem : Memory
  /-- The flags register FL of the EXT profile (R33); it stays 0 in the base profile, where it does not exist (R32). -/
  fl : Byte
  /-- The output sequence, oldest first (R37). -/
  out : List Byte
  /-- The parameter `EXT_ENABLED` (R3), fixed for the life of the machine (R83). The model's own place for it, log 1. -/
  extEnabled : Bool
  /-- The fault recorded for the machine, if any (R21, R109, R254), log 2. -/
  faulted : Option Fault
deriving DecidableEq, Repr

/-- The machine `construct()` gives with the parameters `EXT_ENABLED` (R3) and `SP_RESET` (R4, R281), the second at the
spec's value unless another is given (R280, 10_state.md section 10). -/
def State.construct (ext : Bool) (sp : Byte := Config.spReset) : State where
  x := #v[Config.gprReset, Config.gprReset, Config.gprReset, Config.gprReset,
          Config.gprReset, Config.gprReset, Config.gprReset, sp]
  pc := Config.pcReset
  halted := false
  mem := []
  fl := Config.flReset
  out := []
  extEnabled := ext
  faulted := none

/-- The machine right after construction with the spec's default profile and its value of `SP_RESET` (R3, R4, R280), log 1, log 5. -/
def State.reset : State := State.construct Config.extEnabledDefault

end Sys2Proof.Machine
end

