-- ==== Sys2Proof/Machine/Ops.lean ====
section
/-! DEFINITION. The named operations over registers, memory, pc and output that every instruction is written with
(00_scope.md section 5), the check of an address, and the building of a fault record. The machine has no trap entry and
no return from a trap (R259, R260): raising a fault IS answering `.fault record`, in the one place `raise`. -/

namespace Sys2Proof.Machine

/-- What a step, an instruction or a checked operation answers. -/
abbrev Result := Host.Outcome State Fault Refusal

/-- An integer reduced modulo 256, as every register and memory write reduces it (R25, R53). -/
def truncByte (v : Int) : Byte := BitVec.ofInt 8 v

/-- The canonical form: addresses strictly rising, no cell that reads as an unlisted one does, every address below
`MEM_SIZE` (the array's length never changes, R36). -/
abbrev Memory.wf (m : Memory) : Prop :=
  m.Pairwise (fun p q => p.1 < q.1) ∧ ∀ p ∈ m, p.2 ≠ Config.memBlank ∧ p.1 < Config.memSize

/-- The byte a cell holds (R53): what was last written, else the value at construction (R60). -/
def Memory.load : Memory → Nat → Byte
  | [], _ => Config.memBlank
  | (k, w) :: rest, a => if a = k then w else Memory.load rest a

/-- Replace a cell in place (R53), keeping the canonical form. -/
def Memory.store : Memory → Nat → Byte → Memory
  | [], a, v => if v = Config.memBlank then [] else [(a, v)]
  | (k, w) :: rest, a, v =>
    if a < k then (if v = Config.memBlank then (k, w) :: rest else (a, v) :: (k, w) :: rest)
    else if a = k then (if v = Config.memBlank then rest else (a, v) :: rest)
    else (k, w) :: Memory.store rest a v

/-- Place bytes at increasing addresses from `a` (R282). -/
def Memory.storeList : Memory → Nat → List Byte → Memory
  | m, _, [] => m
  | m, a, v :: rest => Memory.storeList (Memory.store m a v) (a + 1) rest

/-- `MemRead(a, 1)` (R50, R51): `AddressError(memory, a)` outside `[0, MEM_SIZE)`. -/
def Memory.read (m : Memory) (a : Nat) : Except AddressDetail Byte :=
  if a < Config.memSize then .ok (m.load a) else .error (.memory a)

/-- `MemWrite(a, 1, v)` (R50, R51): the access does not happen where the address is out of range. -/
def Memory.write (m : Memory) (a : Nat) (v : Int) : Except AddressDetail Memory :=
  if a < Config.memSize then .ok (m.store a (truncByte v)) else .error (.memory a)

/-- The byte that `mem[a]` holds, for an address in memory (R53). -/
def State.byteAt (s : State) (a : Nat) : Byte := s.mem.load a

/-- `x[i]`, a register read (R22, R24). -/
def State.reg (s : State) (i : RegIdx) : Byte := s.x.get i

/-- `x[i] <- v`, a register write: the value is stored modulo 256 (R25). -/
def State.writeReg (s : State) (i : RegIdx) (v : Int) : State := { s with x := s.x.set i.val (truncByte v) i.isLt }

/-- SP, a name for `x[7]` (R23). -/
def State.sp (s : State) : Byte := s.reg Config.spIndex

/-- `SP <- v`: through the same interface as any register (R23, R25). -/
def State.setSp (s : State) (v : Int) : State := s.writeReg Config.spIndex v

/-- `pc <- t` for a jump, call or return target: any byte, unchecked (R107, R108). -/
def State.jump (s : State) (t : Byte) : State := { s with pc := t.toNat }

/-- The sequential advance `pc <- pc + 1 + operandCount`, with no wrap (R107, R30). -/
def State.advance (s : State) (m : Mnemonic) : State := { s with pc := s.pc + instrLength m }

/-- `emit(v)` (R134). -/
def State.emit (s : State) (v : Byte) : State := { s with out := s.out ++ [v] }

/-- Raise an AddressError from a handler: the record holds the pc and the opcode of the instruction (R252). Nothing of
the step is kept (R105, R255): the outcome carries no state. -/
def raiseAddress (m : Mnemonic) (s : State) (d : AddressDetail) : Result :=
  .fault (.addressError s.pc (some (opcodeMap m)) d)

/-- An EXT instruction exists in the EXT profile only; in the base profile it raises UnknownOpcodeError (R160, R230, R80).
The decoder has already refused it in a step (R79), so this speaks of `exec` called outside one. -/
def requireExt (m : Mnemonic) (s : State) (k : Result) : Result :=
  if s.extEnabled then k else .fault (.unknownOpcode s.pc (opcodeMap m))

/-- Go on with the byte at `a`, or raise `AddressError(memory, a)` (R51). -/
def withRead (m : Mnemonic) (a : Nat) (s : State) (k : Byte → Result) : Result :=
  match Memory.read s.mem a with
  | .ok v => k v
  | .error d => raiseAddress m s d

/-- Go on with memory after `MemWrite(a, 1, v)`, or raise `AddressError(memory, a)` (R51). -/
def withWrite (m : Mnemonic) (a : Nat) (v : Int) (s : State) (k : Memory → Result) : Result :=
  match Memory.write s.mem a v with
  | .ok mem' => k mem'
  | .error d => raiseAddress m s d

/-- The state after SP is decremented modulo 256, the first effect of PUSH and CALL (R59, R200, R222). -/
def State.decSp (s : State) : State := s.setSp ((s.sp.toNat : Int) - 1)

/-- The state after SP is incremented modulo 256, the last effect of POP on SP and of RET (R59, R203, R225). -/
def State.incSp (s : State) : State := s.setSp ((s.sp.toNat : Int) + 1)

/-- Push: SP is decremented, then the value is written at SP (R59, "pre-decrement"). The value is computed from the state
in which SP has its new value (D12, log 10). A stack address outside memory raises AddressError and nothing is written,
SP included: the record's pc is that of the instruction (R200, R222). -/
def withPush (m : Mnemonic) (value : State → Int) (s : State) (k : State → Result) : Result :=
  let s1 := s.decSp
  withWrite m s1.sp.toNat (value s1) s1 fun mem' => k { s1 with mem := mem' }

/-- Pop: the byte at SP (R59, "pop after reading"); the caller increments SP afterwards. -/
def withPop (m : Mnemonic) (s : State) (k : Byte → Result) : Result := withRead m s.sp.toNat s k

/-- The outcome tag of the whole machine (R21). -/
inductive OutcomeTag where
  | running
  | halted
  | faulted (f : Fault)
deriving DecidableEq, Repr

/-- The tag, computed from the recorded fault and `halted` (R21, C4), log 2. -/
def State.outcome (s : State) : OutcomeTag :=
  match s.faulted with
  | some f => .faulted f
  | none => if s.halted then .halted else .running

end Sys2Proof.Machine
end

