-- ==== Sys2Proof/Machine/Flags.lean ====
section
/-! DEFINITION. The flags register FL of the EXT profile (R33): its fields, and the one computation that writes it, CMP's
(R164). -/

namespace Sys2Proof.Machine

/-- Bit 2, L: less at the last CMP. -/
def State.flagL (s : State) : Bool := s.fl.getLsbD 2

/-- Bit 1, G: greater at the last CMP. -/
def State.flagG (s : State) : Bool := s.fl.getLsbD 1

/-- Bit 0, E: equal at the last CMP; JEQ and JNE read it. -/
def State.flagE (s : State) : Bool := s.fl.getLsbD 0

/-- `c ? 1 : 0` as a byte. -/
def flagBit (c : Bool) : Byte := if c then 1#8 else 0#8

/-- CMP's value of FL: `(L << 2) | (G << 1) | E` of an unsigned comparison (R164, D17). -/
def cmpFlags (va vb : Byte) : Byte :=
  (flagBit (decide (va.toNat < vb.toNat)) <<< 2)
    ||| (flagBit (decide (vb.toNat < va.toNat)) <<< 1)
    ||| flagBit (decide (va.toNat = vb.toNat))

/-- `FL <- v`: only the ALU's CMP writes it (R33). -/
def State.setFl (s : State) (v : Byte) : State := { s with fl := v }

end Sys2Proof.Machine
end

