-- ==== Sys2Proof/Machine/Operands.lean ====
section
/-! DEFINITION. The operand forms (30_encoding.md section 2): a register index byte, checked and not masked (R75), and a
pair of them, the first checked first (R153, R258). The immediate (R74) is its byte as it stands and needs no form. -/

namespace Sys2Proof.Machine

/-- The register an operand byte names (R26, R75). -/
def regIndex (i : Byte) : Option RegIdx := if h : i.toNat < 8 then some ⟨i.toNat, h⟩ else none

/-- Go on with the register `i` names, or raise `AddressError(register, i)` (R26). -/
def withReg (m : Mnemonic) (i : Byte) (s : State) (k : RegIdx → Result) : Result :=
  match regIndex i with
  | some r => k r
  | none => raiseAddress m s (.register i)

/-- Two register operands: `a` is checked, then `b` (R153). -/
def withRegs (m : Mnemonic) (a b : Byte) (s : State) (k : RegIdx → RegIdx → Result) : Result :=
  withReg m a s fun ra => withReg m b s fun rb => k ra rb

end Sys2Proof.Machine
end

