-- ==== Sys2Proof/Machine/Alu.lean ====
section
/-! DEFINITION. The ALU (R150 to R154) and the meanings of the ALU instructions of both profiles (42_alu.md). -/

namespace Sys2Proof.Machine

/-- Is the tag one the ALU implements (R151)? `ADD` and `MUL` always, the others with EXT. -/
def aluSupports (ext : Bool) : AluOp → Bool
  | .add | .mul => true
  | .sub | .cmp | .and | .or | .xor | .not | .shl | .shr => ext

/-- The effect of an operation: a value for the destination register, exact before the write reduces it (R152), or
CMP's flags (R150). -/
inductive AluEffect where
  | value (v : Int)
  | flags (f : Byte)
deriving DecidableEq, Repr

/-- The operation itself, on the values of the destination and source registers, computed on integers (R152). NOT does
not use the second (R173, D18); shifts take the whole byte as the amount (R176, R179, D19). -/
def aluCompute (va vb : Byte) : AluOp → AluEffect
  | .add => .value (va.toNat + vb.toNat : Int)
  | .mul => .value (va.toNat * vb.toNat : Int)
  | .sub => .value (va.toNat - vb.toNat : Int)
  | .cmp => .flags (cmpFlags va vb)
  | .and => .value (va &&& vb).toNat
  | .or => .value (va ||| vb).toNat
  | .xor => .value (va ^^^ vb).toNat
  | .not => .value (255 - va.toNat : Int)
  | .shl => .value (va.toNat <<< vb.toNat : Nat)
  | .shr => .value (va.toNat >>> vb.toNat : Nat)

/-- Write the one result (R150): the destination register, or FL. -/
def State.aluWrite (s : State) (dest : RegIdx) : AluEffect → State
  | .value v => s.writeReg dest v
  | .flags f => s.setFl f

/-- The index the ALU checks and reads beside `dest`: its second index input, which NOT does not use (R153, R173, C2), so
that NOT has only `dest`. -/
def aluSource (dest src : Byte) : AluOp → Byte
  | .not => dest
  | .add | .mul | .sub | .cmp | .and | .or | .xor | .shl | .shr => src

/-- `apply(operation, dest, src)` (R150): a tag outside the profile is an UnsupportedOperationError (R151, R253); the
indices are checked, `dest` first (R153), but for NOT's second, which is not used (R173); both values are read before the
write. pc and memory are untouched. The mnemonic is the calling instruction's, for the record (R252). DESIGN CHOICE: the
tag is tested before the indices, since the spec orders no two errors of this interface, and a caller outside the
instruction stream, for which R252 gives no record, gives a mnemonic too, so that the record holds the machine's pc and that
mnemonic's opcode (log 19). -/
def aluApply (m : Mnemonic) (op : AluOp) (dest src : Byte) (s : State) : Result :=
  if aluSupports s.extEnabled op then
    withRegs m dest (aluSource dest src op) s fun rd rs =>
      .next (s.aluWrite rd (aluCompute (s.reg rd) (s.reg rs) op))
  else .fault (.unsupportedOperation s.pc (some (opcodeMap m)) op)

/-- The handler of an ALU instruction: the ALU, then the default advance (R104, R107). -/
def aluInstr (m : Mnemonic) (op : AluOp) (dest src : Byte) (s : State) : Result :=
  match aluApply m op dest src s with
  | .next s' => .next (s'.advance m)
  | .fault f => .fault f
  | .refused r => .refused r

/-- ADD (R155). -/
def execAdd (a b : Byte) (s : State) : Result := aluInstr .add .add a b s

/-- MUL (R157). -/
def execMul (a b : Byte) (s : State) : Result := aluInstr .mul .mul a b s

/-- SUB (R160). -/
def execSub (a b : Byte) (s : State) : Result := requireExt .sub s (aluInstr .sub .sub a b s)

/-- CMP (R164). -/
def execCmp (a b : Byte) (s : State) : Result := requireExt .cmp s (aluInstr .cmp .cmp a b s)

/-- AND (R167). -/
def execAnd (a b : Byte) (s : State) : Result := requireExt .and s (aluInstr .and .and a b s)

/-- OR (R169). -/
def execOr (a b : Byte) (s : State) : Result := requireExt .or s (aluInstr .or .or a b s)

/-- XOR (R171). -/
def execXor (a b : Byte) (s : State) : Result := requireExt .xor s (aluInstr .xor .xor a b s)

/-- NOT (R173, C2): one operand; the ALU's second index input, which the ALU does not use for NOT, is given the same byte
(log 19). -/
def execNot (a : Byte) (s : State) : Result := requireExt .not s (aluInstr .not .not a a s)

/-- SHL (R176). -/
def execShl (a b : Byte) (s : State) : Result := requireExt .shl s (aluInstr .shl .shl a b s)

/-- SHR (R179). -/
def execShr (a b : Byte) (s : State) : Result := requireExt .shr s (aluInstr .shr .shr a b s)

end Sys2Proof.Machine
end

