-- ==== Sys2Proof/Machine/Control.lean ====
section
/-! DEFINITION. CALL, RET and the EXT jumps (44_control.md). Targets are register-indirect bytes, unchecked (R108). -/

namespace Sys2Proof.Machine

/-- CALL (R222): the return address is `pc + 2`; the target is read after SP was written, so `CALL R7` jumps to the
decremented SP (D12). -/
def execCall (r : Byte) (s : State) : Result :=
  withReg .call r s fun d =>
    withPush .call (fun s1 => (s1.pc + instrLength .call : Nat)) s fun s2 => .next (s2.jump (s2.reg d))

/-- RET (R225). -/
def execRet (s : State) : Result := withPop .ret s fun t => .next (s.incSp.jump t)

/-- JMP (R230). -/
def execJmp (r : Byte) (s : State) : Result :=
  requireExt .jmp s (withReg .jmp r s fun d => .next (s.jump (s.reg d)))

/-- JEQ (R233): the index is checked whether or not the jump is taken. -/
def execJeq (r : Byte) (s : State) : Result :=
  requireExt .jeq s (withReg .jeq r s fun d => .next (if s.flagE then s.jump (s.reg d) else s.advance .jeq))

/-- JNE (R236): as JEQ, on the flag's complement. -/
def execJne (r : Byte) (s : State) : Result :=
  requireExt .jne s (withReg .jne r s fun d => .next (if s.flagE then s.advance .jne else s.jump (s.reg d)))

end Sys2Proof.Machine
end

