-- ==== Sys2Proof/Machine/Data.lean ====
section
/-! DEFINITION. LDI and PRN (41_data.md) and HLT (40_cycle.md section 4). -/

namespace Sys2Proof.Machine

/-- HLT (R110): the one instruction that sets `halted`; pc takes the default advance. -/
def execHlt (s : State) : Result := .next (State.advance { s with halted := true } .hlt)

/-- LDI (R130): the immediate is any byte, as it stands (R74). -/
def execLdi (r i : Byte) (s : State) : Result :=
  withReg .ldi r s fun d => .next ((s.writeReg d i.toNat).advance .ldi)

/-- PRN (R133, R134). -/
def execPrn (r : Byte) (s : State) : Result :=
  withReg .prn r s fun d => .next ((s.emit (s.reg d)).advance .prn)

end Sys2Proof.Machine
end

