-- ==== Sys2Proof/Machine/Stack.lean ====
section
/-! DEFINITION. PUSH and POP (43_stack.md). Each line of the spec's pseudocode sees the writes of the line before (D12). -/

namespace Sys2Proof.Machine

/-- PUSH (R200): `x[op0]` is read after SP was written, so `PUSH R7` stores the decremented SP. -/
def execPush (r : Byte) (s : State) : Result :=
  withReg .push r s fun d =>
    withPush .push (fun s1 => (s1.reg d).toNat) s fun s2 => .next (s2.advance .push)

/-- POP (R203): SP is read after `x[op0]` was written, so `POP R7` leaves the popped value plus one. -/
def execPop (r : Byte) (s : State) : Result :=
  withReg .pop r s fun d =>
    withPop .pop s fun v => .next ((s.writeReg d v.toNat).incSp.advance .pop)

end Sys2Proof.Machine
end

