-- ==== Sys2Proof/Machine/Fetch.lean ====
section
/-! DEFINITION. The fetch window (R102), the decoding of the fetched bytes (R103), the end of a run (R101), and placing an
instruction where the next step fetches it. -/

namespace Sys2Proof.Machine

/-- The fetch window: the bytes at `pc`, `pc + 1`, `pc + 2`, read in that order by every step; the first address out of
range raises `AddressError(memory, address)`, and the record has no opcode, since the window was not read (R102, R252). -/
def fetchWindow (s : State) : Except Fault (Byte × Byte × Byte) :=
  match Memory.read s.mem s.pc with
  | .error d => .error (.addressError s.pc none d)
  | .ok b =>
    match Memory.read s.mem (s.pc + 1) with
    | .error d => .error (.addressError s.pc none d)
    | .ok op0 =>
      match Memory.read s.mem (s.pc + 2) with
      | .error d => .error (.addressError s.pc none d)
      | .ok op1 => .ok (b, op0, op1)

/-- The instruction the step runs, or the fault its fetch or its decoding raises (R102, R103, R80). -/
def fetchInstr (s : State) : Except Fault Instr :=
  match fetchWindow s with
  | .error f => .error f
  | .ok (b, op0, op1) =>
    match decode s.extEnabled [b, op0, op1] with
    | .error _ => .error (.unknownOpcode s.pc b)
    | .ok (i, _) => .ok i

/-- The end of the run, if the machine is at it (R101, D22; log 3): a Faulted machine reports its fault again, a Halted
one stays as it is, with `halted` to be read. `none` is a Running machine. -/
def endOfRun (s : State) : Option Result :=
  match s.outcome with
  | .running => none
  | .halted => some (.next s)
  | .faulted f => some (.fault f)

/-- `s` made ready to fetch the table word `w` of `nbits` bits as its next instruction (log 9): the three bytes placed at
the pc, or at address 0 where the window at the pc does not lie in memory; a Running machine; and the EXT map active
where the word's opcode is an EXT one. -/
def placeFetchWord (s : State) (nbits w : Nat) : State :=
  let at0 := if s.pc + 2 < Config.memSize then s.pc else 0
  { s with
    pc := at0
    halted := false
    faulted := none
    extEnabled := s.extEnabled || (decodeOpcode false (tableByte nbits w 0)).isNone && (decodeOpcode true (tableByte nbits w 0)).isSome
    mem := Memory.storeList s.mem at0 [tableByte nbits w 0, tableByte nbits w 1, tableByte nbits w 2] }

end Sys2Proof.Machine
end

