-- ==== Sys2Proof/Machine/Step.lean ====
section
/-! DEFINITION. One step of the engine (R109): the end of the run, else fetch, decode, dispatch. -/

namespace Sys2Proof.Machine

/-- One step (R109). -/
def step (s : State) : Host.Outcome State Fault Refusal :=
  match endOfRun s with
  | some r => r
  | none =>
    match fetchInstr s with
    | .error f => .fault f
    | .ok i => exec i s

/-- `s` with an instruction placed where `step` fetches its next one (log 9). -/
def State.withFetchWord (s : State) (nbits w : Nat) : State := placeFetchWord s nbits w

end Sys2Proof.Machine
end

