-- ==== Sys2Proof/Machine/FaultRecord.lean ====
section
/-! DEFINITION. Reading a fault's record (R252) and its number (R256). -/

namespace Sys2Proof.Machine

/-- The three kinds (R250, R251, R253). -/
inductive FaultKind where
  | addressError
  | unknownOpcodeError
  | unsupportedOperationError
deriving DecidableEq, Repr

/-- The detail of a record, of any kind (R250, R251, R253). -/
inductive FaultDetail where
  | address (d : AddressDetail)
  | opcode (b : Byte)
  | tag (op : AluOp)
deriving DecidableEq, Repr

def Fault.kind : Fault → FaultKind
  | .addressError _ _ _ => .addressError
  | .unknownOpcode _ _ => .unknownOpcodeError
  | .unsupportedOperation _ _ _ => .unsupportedOperationError

/-- The address of the faulting instruction. -/
def Fault.pc : Fault → Nat
  | .addressError pc _ _ => pc
  | .unknownOpcode pc _ => pc
  | .unsupportedOperation pc _ _ => pc

/-- The byte at `pc` if the fetch window was read, else absent. -/
def Fault.opcode : Fault → Option Byte
  | .addressError _ b _ => b
  | .unknownOpcode _ b => some b
  | .unsupportedOperation _ b _ => b

def Fault.detail : Fault → FaultDetail
  | .addressError _ _ d => .address d
  | .unknownOpcode _ b => .opcode b
  | .unsupportedOperation _ _ op => .tag op

/-- The spec's numbers (R256, D25); 0 is not a fault. -/
def FaultKind.code : FaultKind → Nat
  | .addressError => 1
  | .unknownOpcodeError => 2
  | .unsupportedOperationError => 3

end Sys2Proof.Machine
end

