-- ==== Sys2Proof/Machine/HostInterface.lean ====
section
/-! DEFINITION. The host's operations (R265): construct, loadBytes, step, run, the read-only accessor, and the rendering of
the output (R135). They call the machine; the machine never calls them. -/

namespace Sys2Proof.Machine

/-- `loadBytes(seq)` (R282): `mem[k] <- seq[k]` from address 0 and nothing else; a sequence longer than memory raises
`AddressError(memory, MEM_SIZE)` and writes nothing (for what becomes of the machine, see `Session.loadBytes`). -/
def State.loadBytes (s : State) (seq : List Byte) : Except AddressDetail State :=
  if seq.length ≤ Config.memSize then .ok { s with mem := Memory.storeList s.mem 0 seq }
  else .error (.memory Config.memSize)

/-- Record a fault for the machine (R254): the outcome becomes `Faulted(f)`; everything else is as it was before the
faulting step (R255). -/
def State.recordFault (s : State) (f : Fault) : State := { s with faulted := some f }

/-- A machine as its host holds it: whether the first step has been called is the host's own knowledge and no state of
the core (R20, R283). -/
structure Session where
  machine : State
  started : Bool
deriving DecidableEq, Repr

/-- `construct()` with `EXT_ENABLED` and `SP_RESET` (R265, R280, R281). -/
def Session.construct (ext : Bool) (sp : Byte := Config.spReset) : Session := ⟨State.construct ext sp, false⟩

/-- Why a host move is turned away. -/
inductive HostError where
  /-- AddressError of a program longer than memory (R282) -/
  | address (d : AddressDetail)
  /-- no `loadBytes` after the first step (R283) -/
  | afterFirstStep
deriving DecidableEq, Repr

/-- The host's `loadBytes`: allowed only before the first step (R283, R267). DESIGN CHOICE (log 21): a program too long is an
error of the host's call alone. R282 says only that nothing is written; the model records no fault, so that the machine
stays Running and may be loaded again. -/
def Session.loadBytes (h : Session) (seq : List Byte) : Except HostError Session :=
  if h.started then .error .afterFirstStep
  else match h.machine.loadBytes seq with
    | .ok s => .ok { h with machine := s }
    | .error d => .error (.address d)

/-- The host's `step()` (R265): one step, or nothing at the end of the run (R101). A step that faults changes nothing but
the recorded fault (R254, R255). A step cannot be refused: no arm of `exec` refuses. -/
def Session.step (h : Session) : Session :=
  { started := true
    machine :=
      match Machine.step h.machine with
      | .next s => s
      | .fault f => h.machine.recordFault f
      | .refused _ => h.machine }

/-- The host's `run()` under fuel (R111): step until the machine is Halted or Faulted. Running out of fuel is no end of
the run (R112): the session that is then answered is still Running. -/
def Session.run : Nat → Session → Session
  | 0, h => h
  | n + 1, h => if h.machine.outcome = .running then Session.run n h.step else h

/-- What the read-only accessor shows (R265, R266): FL only where it exists (R32, D33). -/
structure Snapshot where
  pc : Nat
  registers : List Byte
  halted : Bool
  fl : Option Byte
  window : List Byte
deriving DecidableEq, Repr

/-- The accessor (R265), with the memory window of the `n` cells from `a`. DESIGN CHOICE (log 20): the spec does not say what
the window shows at or beyond `MEM_SIZE`; the model leaves those cells out, so that the window is shorter than `n`. -/
def State.snapshot (s : State) (a n : Nat) : Snapshot where
  pc := s.pc
  registers := s.x.toList
  halted := s.halted
  fl := if s.extEnabled then some s.fl else none
  window := ((List.range n).map (a + ·)).filterMap fun k => (Memory.read s.mem k).toOption

/-- The decimal digits of a byte: no sign, no leading zero, no padding (R135). -/
def decimalDigits (v : Byte) : List Nat :=
  if v.toNat < 10 then [v.toNat]
  else if v.toNat < 100 then [v.toNat / 10, v.toNat % 10]
  else [v.toNat / 100, v.toNat / 10 % 10, v.toNat % 10]

/-- The line an element of `out` is rendered as; the terminator is the host's (R135, D23). -/
def renderLine (terminator : List Char) (v : Byte) : List Char :=
  (decimalDigits v).map (fun d => Char.ofNat (48 + d)) ++ terminator

/-- The text of the output: one line an element, in execution order (R134, R135). -/
def State.renderOut (s : State) (terminator : List Char) : List Char :=
  (s.out.map (renderLine terminator)).flatten

end Sys2Proof.Machine
end

