-- ==== Sys2Proof/Safety.lean ====
section
/-! DEFINITION. The terms claims are stated in: a Running machine, the state invariant, what each instruction may write,
the first fault of a step in the spec's order, and straight-line code with balanced stack use. -/

namespace Sys2Proof.Machine

/-- The machine is Running (R21, R101): neither Halted nor Faulted. -/
abbrev Running (s : State) : Prop := s.halted = false ∧ s.faulted = none

/-- The fetch window lies in memory (R102). -/
abbrev WindowInMemory (s : State) : Prop := s.pc + 2 < Config.memSize

/-- The three bytes of the fetch window (R102), where it lies in memory. -/
def State.window (s : State) : List Byte := [s.byteAt s.pc, s.byteAt (s.pc + 1), s.byteAt (s.pc + 2)]

/-- What holds between steps: memory is canonical and keeps its length (R36), pc is in range (R30), FL is one of the
values CMP writes or the construction value (R33, R164), FL stays 0 where it does not exist (R32), and a Halted machine
has no fault recorded (R21, R254). -/
structure StateInv (s : State) : Prop where
  memCanonical : Memory.wf s.mem
  pcInRange : s.pc ≤ max Config.memSize 255
  flLegal : s.fl = 0#8 ∨ s.fl = 1#8 ∨ s.fl = 2#8 ∨ s.fl = 4#8
  flAbsentInBase : s.extEnabled = false → s.fl = 0#8
  haltedNotFaulted : s.halted = true → s.faulted = none

/-- The register an operand byte names, read modulo 8; a byte of 8 or more names none and completes nothing (R26). -/
def regOf (r : Byte) : RegIdx := ⟨r.toNat % 8, Nat.mod_lt _ (by decide)⟩

/-- The registers an instruction may write: its destination, and SP where the stack instructions write it (R150, R200,
R203, R222, R225). -/
def destRegs : Instr → List RegIdx
  | .ldi r _ => [regOf r]
  | .add a _ | .mul a _ | .sub a _ | .and a _ | .or a _ | .xor a _ | .not a | .shl a _ | .shr a _ => [regOf a]
  | .push _ | .call _ | .ret => [Config.spIndex]
  | .pop r => [regOf r, Config.spIndex]
  | .hlt | .prn _ | .cmp _ _ | .jmp _ | .jeq _ | .jne _ => []

/-- The one cell an instruction stores to (R56): PUSH and CALL, at SP after it is decremented, as `withPush` computes it. -/
def storedAt (s : State) : Instr → Option Nat
  | .push _ | .call _ => some s.decSp.sp.toNat
  | .hlt | .ldi _ _ | .prn _ | .add _ _ | .mul _ _ | .pop _ | .ret | .sub _ _ | .cmp _ _ | .and _ _ | .or _ _ | .xor _ _
  | .not _ | .shl _ _ | .shr _ _ | .jmp _ | .jeq _ | .jne _ => none

/-- The first fault of a Running machine's step in the order of R258, read off the state alone: the window's addresses,
the opcode, the register operands in order. The stack address (R258, item 5) cannot be out of range with
`MEM_SIZE = 256` (R257). -/
def firstFault (s : State) : Option Fault :=
  match [s.pc, s.pc + 1, s.pc + 2].find? fun a => decide (Config.memSize ≤ a) with
  | some a => some (.addressError s.pc none (.memory a))
  | none =>
    let b := s.byteAt s.pc
    match (activeMap s.extEnabled).find? fun m => opcodeMap m == b with
    | none => some (.unknownOpcode s.pc b)
    | some m =>
      match (m.build (s.byteAt (s.pc + 1)) (s.byteAt (s.pc + 2))).regOperands.find? fun r => decide (8 ≤ r.toNat) with
      | some r => some (.addressError s.pc (some b) (.register r))
      | none => none

/-- The template of a two-register ALU instruction (R154, R153): `a` is checked, then `b`; else `x[a]` becomes
`f(x[a], x[b])` computed on integers and reduced modulo 256, pc advances by 3, and everything else is as before. -/
def AluTemplate (mk : Byte → Byte → Instr) (f : Nat → Nat → Int) : Prop :=
  ∀ (s : State) (a b : Byte), (mk a b).available s.extEnabled = true →
    (∀ (ha : a.toNat < 8) (hb : b.toNat < 8),
      exec (mk a b) s = .next { s with
        x := s.x.set a.toNat (BitVec.ofInt 8 (f s.x[a.toNat].toNat s.x[b.toNat].toNat))
        pc := s.pc + 3 }) ∧
    (8 ≤ a.toNat →
      exec (mk a b) s = .fault (.addressError s.pc (some (opcodeMap (mk a b).mnemonic)) (.register a))) ∧
    (a.toNat < 8 → 8 ≤ b.toNat →
      exec (mk a b) s = .fault (.addressError s.pc (some (opcodeMap (mk a b).mnemonic)) (.register b)))

/-- The pc an instruction leaves when it completes: R107's table, row by row. A register operand is read as R107 reads it
for CALL, after SP is decremented. -/
def tablePc (s : State) : Instr → Nat
  | .hlt => s.pc + 1
  | .ldi _ _ => s.pc + 3
  | .prn _ => s.pc + 2
  | .add _ _ | .mul _ _ | .sub _ _ | .cmp _ _ | .and _ _ | .or _ _ | .xor _ _ | .shl _ _ | .shr _ _ => s.pc + 3
  | .not _ => s.pc + 2
  | .push _ | .pop _ => s.pc + 2
  | .call r => if r = 7#8 then (s.reg 7 - 1#8).toNat else (s.reg (regOf r)).toNat
  | .ret => (s.byteAt (s.reg 7).toNat).toNat
  | .jmp r => (s.reg (regOf r)).toNat
  | .jeq r => if s.fl.getLsbD 0 = true then (s.reg (regOf r)).toNat else s.pc + 2
  | .jne r => if s.fl.getLsbD 0 = false then (s.reg (regOf r)).toNat else s.pc + 2

/-- Apply a function to the state of a completed step. -/
def mapNext (g : State → State) : Result → Result
  | .next t => .next (g t)
  | .fault f => .fault f
  | .refused r => .refused r

/-- Run instructions one after the other, as a callee's executed instructions: each from the state the one before left. -/
def execList : List Instr → State → Result
  | [], s => .next s
  | i :: rest, s =>
    match exec i s with
    | .next t => execList rest t
    | .fault f => .fault f
    | .refused r => .refused r

/-- Does the instruction leave SP and the stack alone: no stack instruction, and R7 is not its destination? -/
def leavesStack : Instr → Bool
  | .push _ | .pop _ | .call _ | .ret => false
  | .hlt | .ldi _ _ | .prn _ | .add _ _ | .mul _ _ | .sub _ _ | .cmp _ _ | .and _ _ | .or _ _ | .xor _ _
  | .not _ | .shl _ _ | .shr _ _ | .jmp _ | .jeq _ | .jne _ => true

/-- Executed instructions with balanced PUSH and POP pairs (R239), and how many bytes deep they use the stack. -/
inductive Balanced : Nat → List Instr → Prop where
  /-- nothing -/
  | nil : Balanced 0 []
  /-- an instruction that leaves SP and the stack alone -/
  | plain (i : Instr) : leavesStack i = true → Config.spIndex ∉ destRegs i → Balanced 0 [i]
  /-- a PUSH, balanced code, and the POP that takes the byte back, not into SP -/
  | pair (r r' : Byte) (d : Nat) (body : List Instr) :
      r' ≠ 7#8 → Balanced d body → Balanced (d + 1) (.push r :: (body ++ [.pop r']))
  /-- one after the other -/
  | seq (d₁ d₂ : Nat) (l₁ l₂ : List Instr) : Balanced d₁ l₁ → Balanced d₂ l₂ → Balanced (max d₁ d₂) (l₁ ++ l₂)

end Sys2Proof.Machine
end

