-- ==== Sys2Proof/Certificates/Slice0/Obligations.lean ====
section
/-! DEFINITION. The statements for the provers. Each names the rules of spec/ it rests on; "the spec's decision D<n>" marks
what the spec itself marks as its own choice or inference, and "log <n>" what this model chose. -/

open Sys2Proof Sys2Proof.Machine

/-! ## Encoding -/

/-- Decoding and encoding agree on every instruction, every operand value, both profiles and any bytes that follow: the
decoder answers `i` exactly for the bytes `encode i` of an instruction of the active map (R70, R72, R73, R79 with D21). -/
def Obligations.DecodeAnswersExactlyTheEncodedInstruction : Prop :=
  ∀ (ext : Bool) (bs : List Byte) (i : Instr) (rest : List Byte),
    decode ext bs = .ok (i, rest) ↔ i.available ext = true ∧ bs = encode i ++ rest

/-- A word of each of the twenty rows, written out from R76 and R78, decodes to the instruction it stands for (the spec's
decisions D1, D15, log 8). -/
def Obligations.SpecWordsDecodeToTheirInstructions : Prop :=
  decode false [0b00000001#8] = .ok (.hlt, []) ∧
  decode false [0b10000010#8, 0x00#8, 0x08#8] = .ok (.ldi 0#8 8#8, []) ∧
  decode false [0b01000111#8, 0x00#8] = .ok (.prn 0#8, []) ∧
  decode false [0b10100000#8, 0x00#8, 0x01#8] = .ok (.add 0#8 1#8, []) ∧
  decode false [0b10100010#8, 0x05#8, 0x06#8] = .ok (.mul 5#8 6#8, []) ∧
  decode false [0b01000101#8, 0x07#8] = .ok (.push 7#8, []) ∧
  decode false [0b01000110#8, 0x06#8] = .ok (.pop 6#8, []) ∧
  decode false [0b01010000#8, 0x01#8] = .ok (.call 1#8, []) ∧
  decode false [0b00010001#8] = .ok (.ret, []) ∧
  decode true [0b10100001#8, 0x01#8, 0x02#8] = .ok (.sub 1#8 2#8, []) ∧
  decode true [0b10100111#8, 0x02#8, 0x03#8] = .ok (.cmp 2#8 3#8, []) ∧
  decode true [0b10101000#8, 0x03#8, 0x04#8] = .ok (.and 3#8 4#8, []) ∧
  decode true [0b10101010#8, 0x04#8, 0x05#8] = .ok (.or 4#8 5#8, []) ∧
  decode true [0b10101011#8, 0x05#8, 0x07#8] = .ok (.xor 5#8 7#8, []) ∧
  decode true [0b01101001#8, 0x04#8] = .ok (.not 4#8, []) ∧
  decode true [0b10101100#8, 0x06#8, 0x00#8] = .ok (.shl 6#8 0#8, []) ∧
  decode true [0b10101101#8, 0x07#8, 0x01#8] = .ok (.shr 7#8 1#8, []) ∧
  decode true [0b01010100#8, 0x02#8] = .ok (.jmp 2#8, []) ∧
  decode true [0b01010101#8, 0x01#8] = .ok (.jeq 1#8, []) ∧
  decode true [0b01010110#8, 0x03#8] = .ok (.jne 3#8, [])

/-- R77: AA is the operand count, B marks exactly the ALU instructions, C exactly those that set pc. -/
def Obligations.OpcodeFieldsAgreeWithTheTable : Prop :=
  ∀ m : Mnemonic,
    fieldAA (opcodeMap m) =
      (if m ∈ [.hlt, .ret] then 0
       else if m ∈ [.prn, .push, .pop, .call, .not, .jmp, .jeq, .jne] then 1 else 2) ∧
    (fieldB (opcodeMap m) = true ↔ m ∈ [.add, .mul, .sub, .cmp, .and, .or, .xor, .not, .shl, .shr]) ∧
    (fieldC (opcodeMap m) = true ↔ m ∈ [.call, .ret, .jmp, .jeq, .jne])

/-- R80: every byte outside the active map is an unknown opcode, whose step raises UnknownOpcodeError with the pc and the
byte and changes nothing but the fault the host records; this takes in every byte whose AA is 3 and, in the base profile,
every EXT opcode; 247 bytes are unknown in the base profile and 236 with EXT. -/
def Obligations.UnknownOpcodesFault : Prop :=
  (∀ (s : State) (started : Bool), Running s → WindowInMemory s →
    (∀ m ∈ activeMap s.extEnabled, opcodeMap m ≠ s.byteAt s.pc) →
      step s = .fault (.unknownOpcode s.pc (s.byteAt s.pc)) ∧
      (Session.step ⟨s, started⟩).machine = { s with faulted := some (.unknownOpcode s.pc (s.byteAt s.pc)) }) ∧
  (∀ (ext : Bool) (b : Byte), fieldAA b = 3 → ∀ m ∈ activeMap ext, opcodeMap m ≠ b) ∧
  (∀ m ∈ Mnemonic.extList, ∀ n ∈ activeMap false, opcodeMap n ≠ opcodeMap m) ∧
  ((List.range 256).countP fun n => (decodeOpcode false (BitVec.ofNat 8 n)).isNone) = 247 ∧
  ((List.range 256).countP fun n => (decodeOpcode true (BitVec.ofNat 8 n)).isNone) = 236

/-- R82: operand bytes of the window beyond the instruction's operand count never matter. The step of a machine at a
no-operand opcode is that of one fixed instruction, whatever the other two bytes of the window are; at a one-operand
opcode it is fixed by the first operand byte. -/
def Obligations.UnusedOperandBytesAreNotReferenced : Prop :=
  ∀ (ext : Bool) (m : Mnemonic), m ∈ activeMap ext →
    (m.format = .z → ∃ i : Instr, i.regOperands = [] ∧ ∀ s : State, Running s → WindowInMemory s →
      s.extEnabled = ext → s.byteAt s.pc = opcodeMap m → step s = exec i s) ∧
    (m.format = .r → ∀ op0 : Byte, ∃ i : Instr, i.regOperands = [op0] ∧ ∀ s : State, Running s → WindowInMemory s →
      s.extEnabled = ext → s.byteAt s.pc = opcodeMap m → s.byteAt (s.pc + 1) = op0 → step s = exec i s)

/-! ## The step -/

/-- A Running machine whose window decodes to `i` steps as `exec i` (R102, R103, R104); nothing is added around it, since
each meaning advances pc itself (R107). -/
def Obligations.StepRunsTheDecodedInstruction : Prop :=
  ∀ (s : State) (i : Instr) (rest : List Byte), Running s → WindowInMemory s →
    decode s.extEnabled s.window = .ok (i, rest) → step s = exec i s

/-- The window's first address outside memory is reported, with no opcode, whatever the instruction's length: at pc 254
and 255 address 256, above that pc itself (R102, the spec's decision D8). -/
def Obligations.FetchWindowFaultsAtTheTopOfMemory : Prop :=
  ∀ s : State, Running s → 254 ≤ s.pc →
    step s = .fault (.addressError s.pc none (.memory (if s.pc < 256 then 256 else s.pc)))

/-- A Halted or Faulted machine has no step: it stays as it is, and a recorded fault is reported again (R101, the spec's
decision D22; that `step` answers the same state as next is this model's choice, log 3). -/
def Obligations.EndedMachineStaysAsItIs : Prop :=
  (∀ s : State, s.halted = true → s.faulted = none → step s = .next s) ∧
  (∀ (s : State) (f : Fault), s.faulted = some f → step s = .fault f)

/-- A Running machine always has exactly one step, which completes or faults, and the fault it reports is the first in
the spec's order (R258, the spec's decision D13; R287 with D29). -/
def Obligations.StepReportsTheFirstFaultOrCompletes : Prop :=
  ∀ s : State, Running s →
    (∀ f : Fault, step s = .fault f ↔ firstFault s = some f) ∧
    (firstFault s = none → ∃ t : State, step s = .next t)

/-- With `MEM_SIZE = 256` an instruction completes exactly when it is well formed in the machine's profile; otherwise it
faults; it is never refused (R26, R80, R263). -/
def Obligations.ExactlyWellFormedInstructionsComplete : Prop :=
  ∀ (i : Instr) (s : State),
    (i.wellFormed s.extEnabled = true ↔ ∃ t : State, exec i s = .next t) ∧
    (i.wellFormed s.extEnabled = false ↔ ∃ f : Fault, exec i s = .fault f)

/-- An index is valid iff it is below 8, and an instruction of the active map that uses an operand byte of 8 or more as a
register index raises AddressError(register, i) (R26). That the first such byte is the one reported is the spec's decision
D13 (R153, R258, log 14), and the record's opcode is D25 (log 14). -/
def Obligations.InvalidRegisterIndexFaults : Prop :=
  (∀ i : Byte, (regIndex i).isSome = true ↔ i.toNat < 8) ∧
  ∀ (i : Instr) (s : State) (r : Byte), i.available s.extEnabled = true →
    (i.regOperands.find? fun k => decide (8 ≤ k.toNat)) = some r →
      exec i s = .fault (.addressError s.pc (some (opcodeMap i.mnemonic)) (.register r))

/-- In the base profile `exec` of every EXT instruction raises UnknownOpcodeError. This speaks of `exec` called outside a
step, where the profile check is this model's own second check (DEDUCED, log 13); in a step the decoder has already
answered so (R80, the spec's decision D14). -/
def Obligations.BaseProfileHasNoExtInstruction : Prop :=
  ∀ (i : Instr) (s : State), s.extEnabled = false → i.mnemonic.isExt = true →
    exec i s = .fault (.unknownOpcode s.pc (opcodeMap i.mnemonic))

/-- No instruction raises UnsupportedOperationError (R151, R253: the spec's decision D21), and a step reports it only where
it is already recorded. -/
def Obligations.NoInstructionRaisesUnsupportedOperation : Prop :=
  ∀ (s : State) (pc : Nat) (b : Option Byte) (op : AluOp),
    (∀ i : Instr, exec i s ≠ .fault (.unsupportedOperation pc b op)) ∧
    (s.faulted = none → step s ≠ .fault (.unsupportedOperation pc b op))

/-- At the ALU's own interface a tag outside the profile is an UnsupportedOperationError (R151, R253: the spec's decision
D21). Two things are this model's own choice (DESIGN CHOICE, log 19): the tag is tested before the indices, so that this
holds for every index byte, and the record holds the machine's pc and the opcode of the mnemonic given by the caller. -/
def Obligations.AluRejectsTagsOutsideItsProfile : Prop :=
  ∀ (m : Mnemonic) (op : AluOp) (a b : Byte) (s : State), s.extEnabled = false → op ≠ .add → op ≠ .mul →
    aluApply m op a b s = .fault (.unsupportedOperation s.pc (some (opcodeMap m)) op)

/-- The ALU's one effect is on the destination register or, for CMP, on FL; it leaves pc, memory and the rest alone
(R150). -/
def Obligations.AluChangesItsDestinationAlone : Prop :=
  ∀ (m : Mnemonic) (op : AluOp) (a b : Byte) (s t : State), aluApply m op a b s = .next t →
    t = { s with x := t.x, fl := t.fl } ∧
    (op = .cmp → t.x = s.x) ∧
    (op ≠ .cmp → t.fl = s.fl ∧ ∀ j : RegIdx, j.val ≠ a.toNat → t.reg j = s.reg j)

/-! ## The instructions -/

/-- R110: HLT's bytes, its effect, its two unread window bytes, its fault at the top of memory, and that nothing else sets
`halted`. -/
def Obligations.HltHaltsAndAdvances : Prop :=
  encode .hlt = [0x01#8] ∧
  (∀ s : State, exec .hlt s = .next { s with halted := true, pc := s.pc + 1 }) ∧
  (∀ (ext : Bool) (b0 b1 : Byte), decode ext [0x01#8, b0, b1] = .ok (.hlt, [b0, b1])) ∧
  (∀ s : State, Running s → 254 ≤ s.pc → ∃ f : Fault, step s = .fault f) ∧
  (∀ (i : Instr) (s t : State), i ≠ .hlt → exec i s = .next t → t.halted = s.halted)

/-- R130: LDI's bytes, its effect for every register and every immediate, and its fault. -/
def Obligations.LdiLoadsTheImmediate : Prop :=
  ∀ (r i : Byte), encode (.ldi r i) = [0x82#8, r, i] ∧ ∀ s : State,
    (∀ h : r.toNat < 8, exec (.ldi r i) s = .next { s with x := s.x.set r.toNat i, pc := s.pc + 3 }) ∧
    (8 ≤ r.toNat → exec (.ldi r i) s = .fault (.addressError s.pc (some 0x82#8) (.register r)))

/-- R133: PRN's bytes, the one element it emits, and its fault. -/
def Obligations.PrnEmitsTheRegister : Prop :=
  ∀ r : Byte, encode (.prn r) = [0x47#8, r] ∧ ∀ s : State,
    (∀ h : r.toNat < 8, exec (.prn r) s = .next { s with out := s.out ++ [s.x[r.toNat]], pc := s.pc + 2 }) ∧
    (8 ≤ r.toNat → exec (.prn r) s = .fault (.addressError s.pc (some 0x47#8) (.register r)))

/-- R155: ADD. -/
def Obligations.AddIsTheSumModulo256 : Prop :=
  (∀ a b : Byte, encode (.add a b) = [0xA0#8, a, b]) ∧ AluTemplate .add (fun va vb => va + vb)

/-- R157: MUL keeps the low 8 bits of the unsigned product, which are those of the signed product as well. -/
def Obligations.MulIsTheLowByteOfTheProduct : Prop :=
  (∀ a b : Byte, encode (.mul a b) = [0xA2#8, a, b]) ∧ AluTemplate .mul (fun va vb => va * vb) ∧
  ∀ va vb : Byte, BitVec.ofInt 8 (va.toNat * vb.toNat) = BitVec.ofInt 8 (va.toInt * vb.toInt)

/-- SUB, AND, OR, XOR, SHL and SHR (R160, R167, R169, R171, R176, R179: the spec's decisions D14, D19). -/
def Obligations.ExtAluInstructionsComputeTheirFunctions : Prop :=
  AluTemplate .sub (fun va vb => (va : Int) - vb) ∧
  AluTemplate .and (fun va vb => (va &&& vb : Nat)) ∧
  AluTemplate .or (fun va vb => (va ||| vb : Nat)) ∧
  AluTemplate .xor (fun va vb => (va ^^^ vb : Nat)) ∧
  AluTemplate .shl (fun va vb => (va * 2 ^ vb : Nat)) ∧
  AluTemplate .shr (fun va vb => (va / 2 ^ vb : Nat))

/-- CMP: FL becomes L, G or E of an unsigned comparison and nothing else changes but pc; both indices are checked, `a`
first (R164: the spec's decisions D16, D17). -/
def Obligations.CmpSetsOneFlag : Prop :=
  ∀ (s : State) (a b : Byte), s.extEnabled = true →
    (∀ (ha : a.toNat < 8) (hb : b.toNat < 8),
      exec (.cmp a b) s = .next { s with
        fl := if s.x[a.toNat].toNat < s.x[b.toNat].toNat then 0b100#8
              else if s.x[b.toNat].toNat < s.x[a.toNat].toNat then 0b010#8 else 0b001#8
        pc := s.pc + 3 }) ∧
    (8 ≤ a.toNat → exec (.cmp a b) s = .fault (.addressError s.pc (some 0xA7#8) (.register a))) ∧
    (a.toNat < 8 → 8 ≤ b.toNat → exec (.cmp a b) s = .fault (.addressError s.pc (some 0xA7#8) (.register b)))

/-- NOT: the complement of one register, pc by 2; the ALU's second index input is not used, whatever byte it is given (R173:
the spec's decisions D14, D18). In the last clause the record of the AddressError at the ALU's own interface, the machine's
pc and the opcode of the mnemonic given by the caller, is this model's own choice (DESIGN CHOICE, log 19). -/
def Obligations.NotComplementsOneRegister : Prop :=
  ∀ (s : State) (a : Byte), s.extEnabled = true →
    (∀ ha : a.toNat < 8,
      exec (.not a) s = .next { s with x := s.x.set a.toNat (BitVec.ofNat 8 (255 - s.x[a.toNat].toNat)), pc := s.pc + 2 }) ∧
    (8 ≤ a.toNat → exec (.not a) s = .fault (.addressError s.pc (some 0x69#8) (.register a))) ∧
    (∀ (ha : a.toNat < 8) (src : Byte),
      aluApply .not .not a src s = .next { s with x := s.x.set a.toNat (BitVec.ofNat 8 (255 - s.x[a.toNat].toNat)) }) ∧
    (8 ≤ a.toNat → ∀ src : Byte,
      aluApply .not .not a src s = .fault (.addressError s.pc (some 0x69#8) (.register a)))

/-- PUSH: SP less one modulo 256, the register's value at the new SP, where `PUSH R7` stores the new SP (R200, R59: the
spec's decisions D10, D12). -/
def Obligations.PushStoresBelowTheStackPointer : Prop :=
  ∀ (s : State) (r : Byte),
    (∀ h : r.toNat < 8,
      exec (.push r) s = .next { s with
        x := s.x.set 7 (s.x[7] - 1#8)
        mem := s.mem.store (s.x[7] - 1#8).toNat (if r = 7#8 then s.x[7] - 1#8 else s.x[r.toNat])
        pc := s.pc + 2 }) ∧
    (8 ≤ r.toNat → exec (.push r) s = .fault (.addressError s.pc (some 0x45#8) (.register r)))

/-- POP: the byte at SP into the register, then SP plus one modulo 256, where `POP R7` leaves the byte plus one; the cell
is not cleared (R203, R59: the spec's decisions D10, D12). -/
def Obligations.PopLoadsFromTheStackPointer : Prop :=
  ∀ (s : State) (r : Byte),
    (∀ h : r.toNat < 8,
      exec (.pop r) s = .next { s with
        x := if r = 7#8 then s.x.set 7 (s.byteAt s.x[7].toNat + 1#8)
             else (s.x.set r.toNat (s.byteAt s.x[7].toNat)).set 7 (s.x[7] + 1#8)
        pc := s.pc + 2 }) ∧
    (8 ≤ r.toNat → exec (.pop r) s = .fault (.addressError s.pc (some 0x46#8) (.register r)))

/-- CALL: the return address `pc + 2` at the decremented SP, pc to the register, where `CALL R7` jumps to the new SP
(R222: the spec's decision D12). -/
def Obligations.CallPushesTheReturnAddress : Prop :=
  ∀ (s : State) (r : Byte),
    (∀ h : r.toNat < 8,
      exec (.call r) s = .next { s with
        x := s.x.set 7 (s.x[7] - 1#8)
        mem := s.mem.store (s.x[7] - 1#8).toNat (BitVec.ofNat 8 (s.pc + 2))
        pc := (if r = 7#8 then s.x[7] - 1#8 else s.x[r.toNat]).toNat }) ∧
    (8 ≤ r.toNat → exec (.call r) s = .fault (.addressError s.pc (some 0x50#8) (.register r)))

/-- R225: RET's byte, its effect for every SP, and a bare RET after construction. -/
def Obligations.RetPopsThePc : Prop :=
  encode .ret = [0x11#8] ∧
  (∀ s : State, exec .ret s = .next { s with
    x := s.x.set 7 (s.x[7] + 1#8)
    pc := (s.byteAt s.x[7].toNat).toNat }) ∧
  (∀ ext : Bool, exec .ret (State.construct ext) = .next { State.construct ext with
    x := #v[0#8, 0#8, 0#8, 0#8, 0#8, 0#8, 0#8, 0xF5#8]
    pc := 0 })

/-- JMP, JEQ and JNE: the target register's value, or the default advance where the E flag says so; the index is checked
whether or not the jump is taken (R230, R233, R236: the spec's decisions D13, D20). -/
def Obligations.JumpsGoToTheRegister : Prop :=
  ∀ (s : State) (r : Byte), s.extEnabled = true →
    (∀ h : r.toNat < 8,
      exec (.jmp r) s = .next { s with pc := s.x[r.toNat].toNat } ∧
      exec (.jeq r) s = .next { s with pc := if s.fl.getLsbD 0 = true then s.x[r.toNat].toNat else s.pc + 2 } ∧
      exec (.jne r) s = .next { s with pc := if s.fl.getLsbD 0 = true then s.pc + 2 else s.x[r.toNat].toNat }) ∧
    (8 ≤ r.toNat →
      exec (.jmp r) s = .fault (.addressError s.pc (some 0x54#8) (.register r)) ∧
      exec (.jeq r) s = .fault (.addressError s.pc (some 0x55#8) (.register r)) ∧
      exec (.jne r) s = .fault (.addressError s.pc (some 0x56#8) (.register r)))

/-! ## Rules over all instructions -/

/-- R107: the pc after a completed instruction is its row of the table. -/
def Obligations.PcFollowsTheSequencingTable : Prop :=
  ∀ (i : Instr) (s t : State), exec i s = .next t → t.pc = tablePc s i

/-- An instruction whose opcode field C is 0 takes the default advance, by its own length in bytes, whatever the operands;
only an opcode with C = 1 sets pc otherwise (R84, the spec's decision D32; R70). -/
def Obligations.DefaultAdvanceUnlessCIsSet : Prop :=
  ∀ (i : Instr) (s t : State), exec i s = .next t → fieldC (opcodeMap i.mnemonic) = false →
    t.pc = s.pc + (encode i).length

/-- R34: `halted` is false at construction, set by HLT alone, cleared by nothing, and once it is true nothing runs. -/
def Obligations.HaltedIsSetByHltAlone : Prop :=
  (∀ (ext : Bool) (sp : Byte), (State.construct ext sp).halted = false) ∧
  (∀ (i : Instr) (s t : State), exec i s = .next t → (t.halted = true ↔ s.halted = true ∨ i = .hlt)) ∧
  (∀ s t : State, s.halted = true → step s = .next t → t = s)

/-- FL is written by CMP alone, which leaves bits 7..3 zero and exactly one of L, G and E set (R33, the spec's decision
D16). -/
def Obligations.FlIsWrittenByCmpAlone : Prop :=
  ∀ (i : Instr) (s t : State), exec i s = .next t →
    (i.mnemonic ≠ .cmp → t.fl = s.fl) ∧
    (i.mnemonic = .cmp → (t.fl = 4#8 ∨ t.fl = 2#8 ∨ t.fl = 1#8))

/-- PRN appends exactly the register's value to `out`, and no other instruction changes it (R134, R37: the spec's decision
D23). -/
def Obligations.OutIsWrittenByPrnAlone : Prop :=
  ∀ (i : Instr) (s t : State), exec i s = .next t →
    (∀ r : Byte, i = .prn r → t.out = s.out ++ [s.reg (regOf r)]) ∧
    (i.mnemonic ≠ .prn → t.out = s.out)

/-- Every register but those an instruction names as its destination, and SP for the stack instructions, is unchanged: the
register frame of every instruction. -/
def Obligations.RegistersOutsideTheDestinationAreKept : Prop :=
  ∀ (i : Instr) (s t : State), exec i s = .next t → ∀ j : RegIdx, j ∉ destRegs i → t.reg j = s.reg j

/-- An instruction other than PUSH and CALL changes no byte of memory: the memory frame of every form that stores nothing
(R56). -/
def Obligations.NonStoringInstructionsKeepMemory : Prop :=
  ∀ (i : Instr) (s t : State), i.mnemonic ≠ .push → i.mnemonic ≠ .call → exec i s = .next t →
    ∀ a : Nat, t.byteAt a = s.byteAt a

/-- PUSH and CALL store one byte, at SP after its decrement, as the push operation computes it, and every other byte of
memory reads as before (R56, R59). -/
def Obligations.StoringInstructionsWriteOneByte : Prop :=
  ∀ (i : Instr) (s t : State), i.mnemonic = .push ∨ i.mnemonic = .call → exec i s = .next t →
    ∀ a : Nat, storedAt s i = some a → ∀ b : Nat, b ≠ a → t.byteAt b = s.byteAt b

/-- No instruction changes the profile or the recorded fault (R83: the profile is fixed for the life of the machine; R254).
-/
def Obligations.ProfileAndFaultRecordAreKept : Prop :=
  ∀ (i : Instr) (s t : State), exec i s = .next t → t.extEnabled = s.extEnabled ∧ t.faulted = s.faulted

/-- FL is read through its E bit alone: two machines that differ in FL but agree on bit 0 run every instruction alike, CMP
overwriting the difference (R33: "read by" column; the spec's decision D16). -/
def Obligations.OnlyTheEqualFlagIsRead : Prop :=
  ∀ (i : Instr) (s : State) (f : Byte), f.getLsbD 0 = s.fl.getLsbD 0 →
    exec i { s with fl := f } =
      mapNext (fun t => if i.mnemonic = .cmp then t else { t with fl := f }) (exec i s)

/-- The output channel is write-only from the program's side: what was emitted before never changes a step (R270, R37). -/
def Obligations.OutputIsNeverReadBack : Prop :=
  ∀ (s : State) (o : List Byte),
    step { s with out := o ++ s.out } = mapNext (fun t => { t with out := o ++ t.out }) (step s)

/-! ## Registers and memory -/

/-- A register write stores the value modulo 256 and leaves the seven others alone, SP like any other (R25, R22; for SP the
spec's decision D10). -/
def Obligations.RegisterWriteReducesModulo256 : Prop :=
  ∀ (s : State) (i : RegIdx) (v : Int),
    (((s.writeReg i v).reg i).toNat : Int) = v % 256 ∧ ∀ j : RegIdx, j ≠ i → (s.writeReg i v).reg j = s.reg j

/-- R51: both accesses raise AddressError(memory, a) outside `[0, MEM_SIZE)` and succeed inside; an address taken from a
byte is always inside. -/
def Obligations.MemoryAccessesAreRangeChecked : Prop :=
  (∀ (m : Memory) (a : Nat) (v : Int), 256 ≤ a → m.read a = .error (.memory a) ∧ m.write a v = .error (.memory a)) ∧
  (∀ (m : Memory) (a : Nat) (v : Int), a < 256 → (∃ w : Byte, m.read a = .ok w) ∧ ∃ m' : Memory, m.write a v = .ok m') ∧
  (∀ b : Byte, b.toNat < 256) ∧
  (∀ (i : Instr) (s : State) (pc : Nat) (b : Option Byte) (a : Nat), exec i s ≠ .fault (.addressError pc b (.memory a)))

/-- A write replaces its cell with the value modulo 256 and no other; a read gives the last value written, or the value at
construction (R53; the value at load is left to LoadBytesWritesFromAddressZero). That the canonical form is kept speaks of
this model's own form of memory (DESIGN CHOICE, log 11). -/
def Obligations.MemoryReadsTheLastWrite : Prop :=
  (∀ (m m' : Memory) (a : Nat) (v : Int), m.wf → m.write a v = .ok m' →
    m'.wf ∧ m'.read a = .ok (BitVec.ofInt 8 v) ∧ ∀ b : Nat, b ≠ a → m'.read b = m.read b) ∧
  (∀ (ext : Bool) (sp : Byte) (a : Nat), a < 256 → (State.construct ext sp).mem.read a = .ok 0#8)

/-- Two canonical memories that read alike are equal data (the model's canonical form, log 11). -/
def Obligations.MemoriesThatReadAlikeAreEqual : Prop :=
  ∀ m m' : Memory, m.wf → m'.wf → (∀ a : Nat, m.load a = m'.load a) → m = m'

/-- A byte pushed where the next instruction lies is fetched by the next step (R64). -/
def Obligations.PushedByteIsFetchedNext : Prop :=
  ∀ (s t : State) (r : Byte) (i : Instr) (rest : List Byte), s.mem.wf → r.toNat < 7 → exec (.push r) s = .next t →
    t.pc = s.decSp.sp.toNat → Running t → WindowInMemory t →
    decode t.extEnabled [s.reg (regOf r), s.byteAt (t.pc + 1), s.byteAt (t.pc + 2)] = .ok (i, rest) →
    step t = exec i t

/-! ## Compositions -/

/-- PUSH Ra then POP Rb, neither of them R7, copies Ra into Rb, restores SP and leaves the byte in its cell (R206). -/
def Obligations.PushThenPopMovesTheValue : Prop :=
  ∀ (s t u : State) (a b : Byte), s.mem.wf → a ≠ 7#8 → b ≠ 7#8 →
    exec (.push a) s = .next t → exec (.pop b) t = .next u →
    u.reg (regOf b) = s.reg (regOf a) ∧ u.sp = s.sp ∧
    u.byteAt (s.sp - 1#8).toNat = s.reg (regOf a)

/-- CMP then JEQ or JNE follows the comparison of the two registers (R164, R233, R236: the spec's decisions D16, D17,
D20). -/
def Obligations.ConditionalJumpFollowsTheComparison : Prop :=
  ∀ (s t u : State) (a b r : Byte), exec (.cmp a b) s = .next t →
    (exec (.jeq r) t = .next u →
      u.pc = if s.reg (regOf a) = s.reg (regOf b)
        then (s.reg (regOf r)).toNat else s.pc + 5) ∧
    (exec (.jne r) t = .next u →
      u.pc = if s.reg (regOf a) = s.reg (regOf b)
        then s.pc + 5 else (s.reg (regOf r)).toNat)

/-- Balanced code leaves SP as it was, and every byte of memory but those just below SP it used (R207, R239);
the canonical form it keeps is this model's own (log 11). -/
def Obligations.BalancedCodeKeepsTheStack : Prop :=
  ∀ (d : Nat) (body : List Instr) (s t : State), Balanced d body → d ≤ 255 → s.mem.wf →
    execList body s = .next t →
    t.sp = s.sp ∧ t.mem.wf ∧
    ∀ a : Byte, (∀ k : Nat, 1 ≤ k → k ≤ d → a ≠ s.sp - BitVec.ofNat 8 k) → t.byteAt a.toNat = s.byteAt a.toNat

/-- A CALL whose callee executes balanced code, at most 255 bytes deep, and then RET resumes at the call site plus 2 with
SP as before the CALL (R239). -/
def Obligations.CallReturnsToTheCallSite : Prop :=
  ∀ (d : Nat) (body : List Instr) (s s₁ t u : State) (r : Byte), s.mem.wf → WindowInMemory s → d ≤ 255 →
    Balanced d body → exec (.call r) s = .next s₁ → execList body s₁ = .next t → exec .ret t = .next u →
    u.pc = s.pc + 2 ∧ u.sp = s.sp

/-- Two nested CALLs, with balanced code around and inside, return in LIFO order, each to its own call site (R240). -/
def Obligations.NestedCallsReturnInLifoOrder : Prop :=
  ∀ (d₁ d₂ d₃ : Nat) (l₁ l₂ l₃ : List Instr) (s s₁ s₂ s₃ s₄ s₅ s₆ s₇ : State) (r r' : Byte),
    s.mem.wf → WindowInMemory s → WindowInMemory s₂ → d₁ ≤ 255 → d₂ ≤ 254 → d₃ ≤ 255 →
    Balanced d₁ l₁ → Balanced d₂ l₂ → Balanced d₃ l₃ →
    exec (.call r) s = .next s₁ → execList l₁ s₁ = .next s₂ →
    exec (.call r') s₂ = .next s₃ → execList l₂ s₃ = .next s₄ → exec .ret s₄ = .next s₅ →
    execList l₃ s₅ = .next s₆ → exec .ret s₆ = .next s₇ →
    s₅.pc = s₂.pc + 2 ∧ s₇.pc = s.pc + 2 ∧ s₇.sp = s.sp

/-! ## Invariants and runs -/

/-- Every step keeps the state invariant, from every state that meets it: memory of fixed length (R36), pc in 0..256 (R30), a
legal FL (R33, the spec's decision D16), and no fault beside Halted (R21, log 2). Two clauses are this model's own choice: the
canonical form of memory (log 11), and that FL stays 0 in the base profile, where the spec has no FL (log 7). -/
def Obligations.StepKeepsTheStateInvariant : Prop :=
  ∀ s t : State, StateInv s → step s = .next t → StateInv t

/-- Every constructed machine, in both profiles and for every `SP_RESET`, and the reset state meet the invariant and are
Running; the invariant's clauses of canonical memory and of FL 0 in the base profile are this model's own (log 11, log 7). -/
def Obligations.ConstructionMeetsTheInvariant : Prop :=
  (∀ (ext : Bool) (sp : Byte), StateInv (State.construct ext sp) ∧ Running (State.construct ext sp)) ∧
  StateInv State.reset ∧ Running State.reset

/-- The construction values (R28, R30, R33, R34, R36, R37, R280): `halted` false and memory zero are the source's; the
registers, SP, pc and, in the EXT profile, FL are the spec's decisions D4, D5, D6, D16, where SP takes the parameter
`SP_RESET`, at the spec's value 0xF4 in the reset state (R4, R281, log 5); the profile of the reset state is the spec's
default (R3, D14, log 1). That FL is 0 in the base profile too, where the spec has no FL (R32), is this model's own choice
(DESIGN CHOICE, log 7). -/
def Obligations.ConstructionValuesAreTheSpecs : Prop :=
  (∀ (ext : Bool) (sp : Byte), (∀ i : RegIdx, (State.construct ext sp).reg i = if i = 7 then sp else 0#8) ∧
    (State.construct ext sp).pc = 0 ∧ (State.construct ext sp).halted = false ∧
    (∀ a : Nat, (State.construct ext sp).byteAt a = 0#8) ∧ (State.construct ext sp).fl = 0#8 ∧
    (State.construct ext sp).out = [] ∧ (State.construct ext sp).outcome = .running ∧
    (State.construct ext sp).extEnabled = ext) ∧
  State.reset = State.construct false 0xF4#8 ∧ State.reset.sp = 0xF4#8

/-- Whatever program is loaded and however long it runs, in either profile and for every `SP_RESET`, the invariant holds (R30, R33, R36); its clauses
of canonical memory and of FL 0 in the base profile are this model's own choice (log 11, log 7). -/
def Obligations.EveryLoadedRunKeepsTheInvariant : Prop :=
  ∀ (ext : Bool) (sp : Byte) (program : List Byte) (s t : State) (n : Nat),
    (State.construct ext sp).loadBytes program = .ok s → Host.Core.run Sys2Proof.core n s = .next t → StateInv t

/-- No run withdraws an emitted element, whether it halts, faults later or goes on (R136): at the host's own run, whose
session shows the state reported with a fault, and at every run of the core that answers next. -/
def Obligations.OutputGrowsAlongEveryRun : Prop :=
  (∀ (n : Nat) (h : Session), ∃ o : List Byte, (Session.run n h).machine.out = h.machine.out ++ o) ∧
  ∀ (n : Nat) (s t : State), Host.Core.run Sys2Proof.core n s = .next t → ∃ o : List Byte, t.out = s.out ++ o

/-- `loadBytes` writes the bytes from address 0 and nothing else, and turns away a program longer than memory; the host may
call it before the first step and not after it (R282, R283: the spec's decision D24). That the memory left is
canonical speaks of this model's own form (log 11). -/
def Obligations.LoadBytesWritesFromAddressZero : Prop :=
  (∀ (s : State) (seq : List Byte), s.mem.wf →
    (seq.length ≤ 256 → ∃ t : State, s.loadBytes seq = .ok t ∧ t = { s with mem := t.mem } ∧ t.mem.wf ∧
      ∀ k : Nat, t.byteAt k = if h : k < seq.length then seq[k] else s.byteAt k) ∧
    (256 < seq.length → s.loadBytes seq = .error (.memory 256))) ∧
  ∀ (h : Session) (seq : List Byte),
    (h.started = false → seq.length ≤ 256 → ∃ t : State, h.machine.loadBytes seq = .ok t ∧ h.loadBytes seq = .ok ⟨t, false⟩) ∧
    h.step.loadBytes seq = .error .afterFirstStep

/-- R254: a fault ends the run: the outcome becomes Faulted with the record, `halted` stays false, and no later step or
run changes anything. -/
def Obligations.FaultEndsTheRun : Prop :=
  ∀ (h : Session) (f : Fault), Running h.machine → step h.machine = .fault f →
    h.step.machine.outcome = .faulted f ∧ h.step.machine.halted = false ∧
    h.step.step = h.step ∧ ∀ n : Nat, Session.run n h.step = h.step

/-- A step that faults changes nothing but the recorded fault, which holds the pc of the faulting instruction and, where
the window was read, the byte at it (R252, R255: the spec's decisions D11, D25). -/
def Obligations.FaultsArePreciseAndRecorded : Prop :=
  ∀ (h : Session) (f : Fault), Running h.machine → step h.machine = .fault f →
    h.step.machine = { h.machine with faulted := some f } ∧ f.pc = h.machine.pc ∧
    f.opcode = if h.machine.pc + 2 < 256 then some (h.machine.byteAt h.machine.pc) else none

/-- `run` steps while the machine is Running and stops at the first Halted or Faulted machine (R111). That it takes at most
`n` steps is this model's fuel, which R111 does not know (DESIGN CHOICE, log 16, as R112 allows). -/
def Obligations.RunStepsUntilTheEnd : Prop :=
  ∀ (n : Nat) (h : Session), ∃ k : Nat, k ≤ n ∧ Session.run n h = Session.step^[k] h ∧
    (∀ j : Nat, j < k → (Session.step^[j] h).machine.outcome = .running) ∧
    (k < n → (Session.step^[k] h).machine.outcome ≠ .running)

/-- An element of the output is rendered as its decimal digits, with no leading zero, and one terminator (R135: the spec's
decision D23). -/
def Obligations.OutputIsRenderedInDecimal : Prop :=
  ∀ (v : Byte) (terminator : List Char),
    (decimalDigits v).foldl (fun acc d => 10 * acc + d) 0 = v.toNat ∧
    (∀ d ∈ decimalDigits v, d < 10) ∧
    (1 < (decimalDigits v).length → (decimalDigits v).head? ≠ some 0) ∧
    decimalDigits v ≠ [] ∧
    renderLine terminator v = (decimalDigits v).map (fun d => Char.ofNat (48 + d)) ++ terminator
end

