-- ==== Sys2Proof/Laws/Decode.lean ====
section
/-! SUPPORT. The opcode map has no two rows alike, and the decoder reads exactly its rows. -/

namespace Sys2Proof

theorem mem_activeMap (ext : Bool) (m : Mnemonic) : m ∈ activeMap ext ↔ (ext || !m.isExt) = true := by
  cases ext <;> cases m <;> decide

/-- No two mnemonics share an opcode (R76, R78). -/
theorem opcodeMap_injective {m n : Mnemonic} (h : opcodeMap m = opcodeMap n) : m = n := by
  cases m <;> cases n <;> first | rfl | exact absurd h (by decide)

theorem fieldAA_opcodeMap (m : Mnemonic) : fieldAA (opcodeMap m) = m.format.operandCount := by cases m <;> rfl

/-- The row the decoder finds is the one whose opcode the byte is (R79). -/
theorem find_activeMap {ext : Bool} {b : Byte} {m : Mnemonic} :
    ((activeMap ext).find? fun m => opcodeMap m == b) = some m ↔ m ∈ activeMap ext ∧ opcodeMap m = b := by
  constructor
  · intro h
    exact ⟨List.mem_of_find?_eq_some h, by simpa using List.find?_some h⟩
  · rintro ⟨hm, rfl⟩
    have hs : ((activeMap ext).find? fun n => opcodeMap n == opcodeMap m).isSome := by
      rw [List.find?_isSome]; exact ⟨m, hm, by simp⟩
    obtain ⟨n, hn⟩ := Option.isSome_iff_exists.1 hs
    have : n = m := opcodeMap_injective (by simpa using List.find?_some hn)
    rw [hn, this]

theorem decodeOpcode_opcodeMap {ext : Bool} {m : Mnemonic} (h : m ∈ activeMap ext) :
    decodeOpcode ext (opcodeMap m) = some ⟨m, m.format.operandCount, fieldB (opcodeMap m)⟩ := by
  rw [decodeOpcode, find_activeMap.2 ⟨h, rfl⟩, Option.map_some, fieldAA_opcodeMap]

/-- What the decoder answers for an opcode byte is one of the rows of the active map. -/
theorem decodeOpcode_eq_some {ext : Bool} {b : Byte} {d : Descriptor} (h : decodeOpcode ext b = some d) :
    d.mnemonic ∈ activeMap ext ∧ b = opcodeMap d.mnemonic ∧ d.operandCount = d.mnemonic.format.operandCount := by
  obtain ⟨m, hm, rfl⟩ := Option.map_eq_some_iff.1 h
  obtain ⟨hmem, rfl⟩ := find_activeMap.1 hm
  exact ⟨hmem, rfl, fieldAA_opcodeMap m⟩

/-- A byte outside the active map decodes to nothing (R80). -/
theorem decodeOpcode_eq_none {ext : Bool} {b : Byte} (h : ∀ m ∈ activeMap ext, opcodeMap m ≠ b) :
    decodeOpcode ext b = none := by
  rw [decodeOpcode, Option.map_eq_none_iff, List.find?_eq_none]
  simpa using h

/-- Three bytes are enough for any instruction: decoding them fails only for an unknown opcode. -/
theorem decode_three {ext : Bool} {b op0 op1 : Byte} :
    (∃ i rest, decode ext [b, op0, op1] = .ok (i, rest) ∧ ∃ m ∈ activeMap ext, opcodeMap m = b ∧ i = m.build op0 op1) ∨
      ((∀ m ∈ activeMap ext, opcodeMap m ≠ b) ∧ decode ext [b, op0, op1] = .error (.unknownOpcode b)) := by
  by_cases h : ∃ m ∈ activeMap ext, opcodeMap m = b
  · obtain ⟨m, hm, rfl⟩ := h
    refine .inl ?_
    simp only [decode, decodeOpcode_opcodeMap hm]
    cases m <;> exact ⟨_, _, rfl, _, hm, rfl, rfl⟩
  · have h' : ∀ m ∈ activeMap ext, opcodeMap m ≠ b := fun m hm e => h ⟨m, hm, e⟩
    exact .inr ⟨h', by simp only [decode, decodeOpcode_eq_none h']⟩

/-- The EXT map adds rows and changes none: what decodes without it decodes with it, alike. -/
theorem decode_mono {bs : List Byte} {r : Instr × List Byte} (h : decode false bs = .ok r) : decode true bs = .ok r := by
  match bs with
  | [] => simp [decode] at h
  | b :: rest =>
    cases hd : decodeOpcode false b with
    | none => simp [decode, hd] at h
    | some d =>
      obtain ⟨hm, rfl, -⟩ := decodeOpcode_eq_some hd
      have hm' : d.mnemonic ∈ activeMap true := by rw [mem_activeMap]; rfl
      rw [decodeOpcode_opcodeMap hm] at hd
      have hd' := decodeOpcode_opcodeMap hm'
      rw [hd] at hd'
      simp only [decode, decodeOpcode_opcodeMap hm] at h
      simpa only [decode, decodeOpcode_opcodeMap hm'] using h

end Sys2Proof
end

