-- ==== Sys2Proof/Laws/Memory.lean ====
section
/-! SUPPORT. The laws of the canonical memory: a read after a write, every other address, and that every memory operation
keeps the canonical form. -/

namespace Sys2Proof.Machine

/-- An address below every listed one reads as an unlisted address does. -/
theorem load_of_lt_all {m : Memory} {a : Nat} (h : ∀ p ∈ m, a < p.1) : m.load a = Config.memBlank := by
  induction m with
  | nil => rfl
  | cons p rest ih =>
    have hp : a < p.1 := h p (by simp)
    have hne : ¬ a = p.1 := by omega
    simp only [Memory.load, hne, if_false]
    exact ih fun q hq => h q (by simp [hq])

theorem wf_nil : Memory.wf [] := by simp [Memory.wf]

theorem wf_tail {p : Host.Cell} {m : Memory} (h : Memory.wf (p :: m)) : Memory.wf m :=
  ⟨(List.pairwise_cons.1 h.1).2, fun q hq => h.2 q (by simp [hq])⟩

/-- Every listed address of a store's result was listed, or is the address stored to. -/
theorem mem_store_key {m : Memory} {a : Nat} {v : Byte} {q : Host.Cell} (h : q ∈ m.store a v) :
    q ∈ m ∨ (q = (a, v) ∧ v ≠ Config.memBlank) := by
  induction m with
  | nil =>
    unfold Memory.store at h
    split at h
    · simp at h
    · exact .inr ⟨by simpa using h, ‹_›⟩
  | cons p rest ih =>
    unfold Memory.store at h
    split at h
    · split at h
      · exact .inl h
      · rcases List.mem_cons.1 h with rfl | h
        · exact .inr ⟨rfl, ‹_›⟩
        · exact .inl h
    · split at h
      · split at h
        · exact .inl (List.mem_cons_of_mem _ h)
        · rcases List.mem_cons.1 h with rfl | h
          · exact .inr ⟨rfl, ‹_›⟩
          · exact .inl (List.mem_cons_of_mem _ h)
      · rcases List.mem_cons.1 h with rfl | h
        · exact .inl (by simp)
        · rcases ih h with h | h
          · exact .inl (List.mem_cons_of_mem _ h)
          · exact .inr h

/-- A store to an address of memory keeps the canonical form. -/
theorem wf_store {m : Memory} {a : Nat} (v : Byte) (h : Memory.wf m) (ha : a < Config.memSize) :
    Memory.wf (m.store a v) := by
  refine ⟨?_, ?_⟩
  · induction m with
    | nil => unfold Memory.store; split <;> simp
    | cons p rest ih =>
      have hp := List.pairwise_cons.1 h.1
      unfold Memory.store
      split
      · split
        · exact h.1
        · refine List.pairwise_cons.2 ⟨?_, h.1⟩
          intro q hq
          rcases List.mem_cons.1 hq with rfl | hq
          · assumption
          · exact Nat.lt_trans (by assumption) (hp.1 q hq)
      · split
        · split
          · exact hp.2
          · refine List.pairwise_cons.2 ⟨?_, hp.2⟩
            intro q hq
            have := hp.1 q hq
            simp_all
        · refine List.pairwise_cons.2 ⟨?_, ih (wf_tail h)⟩
          intro q hq
          rcases mem_store_key hq with hq | ⟨rfl, -⟩
          · exact hp.1 q hq
          · simp only
            omega
  · intro q hq
    rcases mem_store_key hq with hq | ⟨rfl, hv⟩
    · exact h.2 q hq
    · exact ⟨hv, ha⟩

/-- A store leaves every other address alone. -/
theorem load_store_other (m : Memory) {a b : Nat} (v : Byte) (hab : b ≠ a) : (m.store a v).load b = m.load b := by
  induction m with
  | nil => unfold Memory.store; split <;> simp [Memory.load, hab]
  | cons p rest ih =>
    unfold Memory.store
    split
    · split
      · rfl
      · simp [Memory.load, hab]
    · split
      · rename_i h; subst h
        split <;> simp [Memory.load, hab]
      · simp only [Memory.load, ih]

/-- A load after a store to the same address gives the value stored. -/
theorem load_store_same {m : Memory} (a : Nat) (v : Byte) (h : Memory.wf m) : (m.store a v).load a = v := by
  induction m with
  | nil =>
    unfold Memory.store
    split
    · simp_all [Memory.load]
    · simp [Memory.load]
  | cons p rest ih =>
    have hp := List.pairwise_cons.1 h.1
    unfold Memory.store
    split
    · rename_i hlt
      split
      · rename_i hv
        rw [hv]
        refine load_of_lt_all fun q hq => ?_
        rcases List.mem_cons.1 hq with rfl | hq
        · exact hlt
        · exact Nat.lt_trans hlt (hp.1 q hq)
      · simp [Memory.load]
    · split
      · rename_i heq; subst heq
        split
        · rename_i hv
          rw [hv]
          exact load_of_lt_all fun q hq => hp.1 q hq
        · simp [Memory.load]
      · rename_i hne
        simp only [Memory.load, hne, if_false]
        exact ih (wf_tail h)

theorem load_store {m : Memory} (a b : Nat) (v : Byte) (h : Memory.wf m) :
    (m.store a v).load b = if b = a then v else m.load b := by
  by_cases hab : b = a
  · subst hab; simp [load_store_same _ _ h]
  · simp [hab, load_store_other _ _ hab]

/-- Placing bytes inside memory keeps the canonical form. -/
theorem wf_storeList {m : Memory} (a : Nat) (bs : List Byte) (h : Memory.wf m) (hlen : a + bs.length ≤ Config.memSize) :
    Memory.wf (m.storeList a bs) := by
  induction bs generalizing m a with
  | nil => exact h
  | cons b rest ih =>
    simp only [List.length_cons] at hlen
    exact ih (a + 1) (wf_store b h (by omega)) (by omega)

/-- Placed bytes read back at their addresses, and every other address as before. -/
theorem load_storeList {m : Memory} (a k : Nat) (bs : List Byte) (h : Memory.wf m)
    (hlen : a + bs.length ≤ Config.memSize) :
    (m.storeList a bs).load k = if hk : a ≤ k ∧ k < a + bs.length then bs[k - a] else m.load k := by
  induction bs generalizing m a with
  | nil =>
    have : ¬ (a ≤ k ∧ k < a) := by omega
    simp [Memory.storeList, this]
  | cons b rest ih =>
    simp only [List.length_cons] at hlen
    rw [Memory.storeList, ih (a + 1) (wf_store b h (by omega)) (by omega), load_store _ _ _ h]
    by_cases hka : k = a
    · subst hka
      simp
    · by_cases hk : a ≤ k ∧ k < a + (rest.length + 1)
      · have h1 : a + 1 ≤ k ∧ k < a + 1 + rest.length := by omega
        obtain ⟨n, rfl⟩ : ∃ n, k = a + (n + 1) := ⟨k - a - 1, by omega⟩
        have e1 : a + (n + 1) - (a + 1) = n := by omega
        have e2 : a + (n + 1) - a = n + 1 := by omega
        simp only [List.length_cons, dif_pos h1, dif_pos hk, e1, e2, List.getElem_cons_succ]
      · have h1 : ¬ (a + 1 ≤ k ∧ k < a + 1 + rest.length) := by omega
        simp only [List.length_cons, dif_neg h1, dif_neg hk, if_neg hka]

theorem read_eq_ok {m : Memory} {a : Nat} (h : a < Config.memSize) : m.read a = .ok (m.load a) := by
  simp [Memory.read, h]

theorem read_eq_error {m : Memory} {a : Nat} (h : Config.memSize ≤ a) : m.read a = .error (.memory a) := by
  have : ¬ a < Config.memSize := by omega
  simp [Memory.read, this]

theorem write_eq_ok {m : Memory} {a : Nat} {v : Int} (h : a < Config.memSize) :
    m.write a v = .ok (m.store a (truncByte v)) := by simp [Memory.write, h]

theorem write_eq_error {m : Memory} {a : Nat} {v : Int} (h : Config.memSize ≤ a) :
    m.write a v = .error (.memory a) := by
  have : ¬ a < Config.memSize := by omega
  simp [Memory.write, this]

/-- An address taken from a byte is always in memory (R51). -/
theorem byte_lt_memSize (b : Byte) : b.toNat < Config.memSize := b.isLt

end Sys2Proof.Machine
end

