-- ==== Sys2Proof/Laws/State.lean ====
section
/-! SUPPORT. One lemma per field and update of State, true by unfolding once. -/

namespace Sys2Proof.Machine

variable (s : State) (i j : RegIdx) (v : Int) (b : Byte) (m : Mnemonic)

@[simp] theorem writeReg_pc : (s.writeReg i v).pc = s.pc := rfl
@[simp] theorem writeReg_halted : (s.writeReg i v).halted = s.halted := rfl
@[simp] theorem writeReg_mem : (s.writeReg i v).mem = s.mem := rfl
@[simp] theorem writeReg_fl : (s.writeReg i v).fl = s.fl := rfl
@[simp] theorem writeReg_out : (s.writeReg i v).out = s.out := rfl
@[simp] theorem writeReg_extEnabled : (s.writeReg i v).extEnabled = s.extEnabled := rfl
@[simp] theorem writeReg_faulted : (s.writeReg i v).faulted = s.faulted := rfl
theorem writeReg_x : (s.writeReg i v).x = s.x.set i.val (truncByte v) i.isLt := rfl

theorem reg_eq_getElem (h : j.val < 8) : s.reg j = s.x[j.val] := rfl

@[simp] theorem reg_writeReg_same : (s.writeReg i v).reg i = truncByte v := by
  simp [State.reg, State.writeReg, Vector.get_eq_getElem]

@[simp] theorem reg_writeReg_other (h : j ≠ i) : (s.writeReg i v).reg j = s.reg j := by
  have h' : i.val ≠ j.val := fun e => h (Fin.ext e.symm)
  simp [State.reg, State.writeReg, Vector.get_eq_getElem, h']

theorem reg_writeReg : (s.writeReg i v).reg j = if j = i then truncByte v else s.reg j := by
  by_cases h : j = i
  · subst h; simp
  · simp [h]

@[simp] theorem jump_pc : (s.jump b).pc = b.toNat := rfl
@[simp] theorem jump_x : (s.jump b).x = s.x := rfl
@[simp] theorem jump_halted : (s.jump b).halted = s.halted := rfl
@[simp] theorem jump_mem : (s.jump b).mem = s.mem := rfl
@[simp] theorem jump_fl : (s.jump b).fl = s.fl := rfl
@[simp] theorem jump_out : (s.jump b).out = s.out := rfl
@[simp] theorem jump_extEnabled : (s.jump b).extEnabled = s.extEnabled := rfl
@[simp] theorem jump_faulted : (s.jump b).faulted = s.faulted := rfl
@[simp] theorem jump_reg : (s.jump b).reg j = s.reg j := rfl

@[simp] theorem advance_pc : (s.advance m).pc = s.pc + instrLength m := rfl
@[simp] theorem advance_x : (s.advance m).x = s.x := rfl
@[simp] theorem advance_halted : (s.advance m).halted = s.halted := rfl
@[simp] theorem advance_mem : (s.advance m).mem = s.mem := rfl
@[simp] theorem advance_fl : (s.advance m).fl = s.fl := rfl
@[simp] theorem advance_out : (s.advance m).out = s.out := rfl
@[simp] theorem advance_extEnabled : (s.advance m).extEnabled = s.extEnabled := rfl
@[simp] theorem advance_faulted : (s.advance m).faulted = s.faulted := rfl
@[simp] theorem advance_reg : (s.advance m).reg j = s.reg j := rfl

@[simp] theorem emit_pc : (s.emit b).pc = s.pc := rfl
@[simp] theorem emit_x : (s.emit b).x = s.x := rfl
@[simp] theorem emit_halted : (s.emit b).halted = s.halted := rfl
@[simp] theorem emit_mem : (s.emit b).mem = s.mem := rfl
@[simp] theorem emit_fl : (s.emit b).fl = s.fl := rfl
@[simp] theorem emit_out : (s.emit b).out = s.out ++ [b] := rfl
@[simp] theorem emit_extEnabled : (s.emit b).extEnabled = s.extEnabled := rfl
@[simp] theorem emit_faulted : (s.emit b).faulted = s.faulted := rfl
@[simp] theorem emit_reg : (s.emit b).reg j = s.reg j := rfl

@[simp] theorem setFl_pc : (s.setFl b).pc = s.pc := rfl
@[simp] theorem setFl_x : (s.setFl b).x = s.x := rfl
@[simp] theorem setFl_halted : (s.setFl b).halted = s.halted := rfl
@[simp] theorem setFl_mem : (s.setFl b).mem = s.mem := rfl
@[simp] theorem setFl_fl : (s.setFl b).fl = b := rfl
@[simp] theorem setFl_out : (s.setFl b).out = s.out := rfl
@[simp] theorem setFl_extEnabled : (s.setFl b).extEnabled = s.extEnabled := rfl
@[simp] theorem setFl_faulted : (s.setFl b).faulted = s.faulted := rfl
@[simp] theorem setFl_reg : (s.setFl b).reg j = s.reg j := rfl

/-- A register read sees the register file alone. -/
@[simp] theorem reg_with_mem (mem' : Memory) : State.reg { s with mem := mem' } j = s.reg j := rfl

/-- Each instruction's length in bytes (R73, R107). -/
@[simp] theorem instrLength_eq : instrLength m = 1 + m.format.operandCount := by cases m <;> rfl

@[simp] theorem truncByte_toNat (a : Byte) : truncByte (a.toNat : Int) = a := by
  simp [truncByte, BitVec.ofInt_natCast]

theorem truncByte_natCast (n : Nat) : truncByte (n : Int) = BitVec.ofNat 8 n := by
  simp [truncByte, BitVec.ofInt_natCast]

@[simp] theorem truncByte_toNat_sub_one (a : Byte) : truncByte ((a.toNat : Int) - 1) = a - 1#8 := by
  have := a.isLt
  apply BitVec.eq_of_toNat_eq
  simp only [truncByte, BitVec.toNat_ofInt, BitVec.toNat_sub]
  simp only [BitVec.toNat_ofNat]
  omega

@[simp] theorem truncByte_toNat_add_one (a : Byte) : truncByte ((a.toNat : Int) + 1) = a + 1#8 := by
  have := a.isLt
  apply BitVec.eq_of_toNat_eq
  simp only [truncByte, BitVec.toNat_ofInt, BitVec.toNat_add]
  simp only [BitVec.toNat_ofNat]
  omega

theorem decSp_eq : s.decSp = s.writeReg Config.spIndex ((s.sp.toNat : Int) - 1) := rfl
theorem incSp_eq : s.incSp = s.writeReg Config.spIndex ((s.sp.toNat : Int) + 1) := rfl

@[simp] theorem decSp_sp : s.decSp.sp = s.sp - 1#8 := by simp [State.decSp, State.setSp, State.sp]
@[simp] theorem incSp_sp : s.incSp.sp = s.sp + 1#8 := by simp [State.incSp, State.setSp, State.sp]

/-- An operand byte names SP exactly when it is 7 (R23). -/
theorem index_eq_spIndex {r : Byte} (h : r.toNat < 8) : (⟨r.toNat, h⟩ : RegIdx) = Config.spIndex ↔ r = 7#8 := by
  constructor
  · intro e
    have : r.toNat = 7 := congrArg Fin.val e
    exact BitVec.eq_of_toNat_eq this
  · rintro rfl
    rfl

theorem decSp_reg (j : RegIdx) : s.decSp.reg j = if j = Config.spIndex then s.sp - 1#8 else s.reg j := by
  rw [decSp_eq, reg_writeReg, truncByte_toNat_sub_one]

theorem incSp_reg (j : RegIdx) : s.incSp.reg j = if j = Config.spIndex then s.sp + 1#8 else s.reg j := by
  rw [incSp_eq, reg_writeReg, truncByte_toNat_add_one]

@[simp] theorem decSp_pc : s.decSp.pc = s.pc := rfl
@[simp] theorem decSp_halted : s.decSp.halted = s.halted := rfl
@[simp] theorem decSp_mem : s.decSp.mem = s.mem := rfl
@[simp] theorem decSp_fl : s.decSp.fl = s.fl := rfl
@[simp] theorem decSp_out : s.decSp.out = s.out := rfl
@[simp] theorem decSp_extEnabled : s.decSp.extEnabled = s.extEnabled := rfl
@[simp] theorem decSp_faulted : s.decSp.faulted = s.faulted := rfl
@[simp] theorem incSp_pc : s.incSp.pc = s.pc := rfl
@[simp] theorem incSp_halted : s.incSp.halted = s.halted := rfl
@[simp] theorem incSp_mem : s.incSp.mem = s.mem := rfl
@[simp] theorem incSp_fl : s.incSp.fl = s.fl := rfl
@[simp] theorem incSp_out : s.incSp.out = s.out := rfl
@[simp] theorem incSp_extEnabled : s.incSp.extEnabled = s.extEnabled := rfl
@[simp] theorem incSp_faulted : s.incSp.faulted = s.faulted := rfl

end Sys2Proof.Machine
end

