-- ==== Sys2Proof/Laws/Operands.lean ====
section
/-! SUPPORT. One law per shared operation of the meanings: what it answers, in every case. -/

namespace Sys2Proof.Machine

variable {m : Mnemonic} {s t : State}

theorem regIndex_of_lt {i : Byte} (h : i.toNat < 8) : regIndex i = some ⟨i.toNat, h⟩ := by simp [regIndex, h]

theorem regIndex_of_ge {i : Byte} (h : 8 ≤ i.toNat) : regIndex i = none := by
  have : ¬ i.toNat < 8 := by omega
  simp [regIndex, this]

theorem withReg_of_lt {i : Byte} {k : RegIdx → Result} (h : i.toNat < 8) : withReg m i s k = k ⟨i.toNat, h⟩ := by
  simp [withReg, regIndex_of_lt h]

theorem withReg_of_ge {i : Byte} {k : RegIdx → Result} (h : 8 ≤ i.toNat) :
    withReg m i s k = .fault (.addressError s.pc (some (opcodeMap m)) (.register i)) := by
  simp [withReg, regIndex_of_ge h, raiseAddress]

/-- A checked register operand completes only for a byte that names a register, and then as its continuation does. -/
theorem withReg_eq_next {i : Byte} {k : RegIdx → Result} :
    withReg m i s k = .next t ↔ ∃ h : i.toNat < 8, k ⟨i.toNat, h⟩ = .next t := by
  by_cases h : i.toNat < 8
  · simp [withReg_of_lt h, h]
  · simp [withReg_of_ge (Nat.le_of_not_lt h), h]

/-- The common case: the continuation always completes. -/
theorem withReg_next_iff {i : Byte} {g : RegIdx → State} :
    (withReg m i s fun d => .next (g d)) = .next t ↔ ∃ h : i.toNat < 8, t = g ⟨i.toNat, h⟩ := by
  simp only [withReg_eq_next, Host.Outcome.next.injEq]
  exact exists_congr fun _ => eq_comm

theorem withRegs_of_lt {a b : Byte} {k : RegIdx → RegIdx → Result} (ha : a.toNat < 8) (hb : b.toNat < 8) :
    withRegs m a b s k = k ⟨a.toNat, ha⟩ ⟨b.toNat, hb⟩ := by simp [withRegs, withReg_of_lt ha, withReg_of_lt hb]

theorem withRegs_eq_next {a b : Byte} {k : RegIdx → RegIdx → Result} :
    withRegs m a b s k = .next t ↔
      ∃ (ha : a.toNat < 8) (hb : b.toNat < 8), k ⟨a.toNat, ha⟩ ⟨b.toNat, hb⟩ = .next t := by
  simp [withRegs, withReg_eq_next]

@[simp] theorem requireExt_of_true {k : Result} (h : s.extEnabled = true) : requireExt m s k = k := by
  simp [requireExt, h]

@[simp] theorem requireExt_of_false {k : Result} (h : s.extEnabled = false) :
    requireExt m s k = .fault (.unknownOpcode s.pc (opcodeMap m)) := by simp [requireExt, h]

theorem requireExt_eq_next {k : Result} : requireExt m s k = .next t ↔ s.extEnabled = true ∧ k = .next t := by
  cases h : s.extEnabled <;> simp [requireExt, h]

/-- A push always completes its access with `MEM_SIZE = 256` (R59): SP decremented, the value at the new SP. -/
theorem withPush_eq (value : State → Int) (k : State → Result) :
    withPush m value s k =
      k { s.decSp with mem := s.mem.store s.decSp.sp.toNat (truncByte (value s.decSp)) } := by
  simp [withPush, withWrite, write_eq_ok (byte_lt_memSize _), State.decSp, State.setSp]

/-- A pop always completes its access with `MEM_SIZE = 256` (R59). -/
theorem withPop_eq (k : Byte → Result) : withPop m s k = k (s.mem.load s.sp.toNat) := by
  simp [withPop, withRead, read_eq_ok (byte_lt_memSize _)]

/-- The ALU's one effect (R150): the destination register, or FL. -/
theorem aluApply_eq_next {op : AluOp} {a b : Byte} :
    aluApply m op a b s = .next t ↔
      aluSupports s.extEnabled op = true ∧ ∃ (ha : a.toNat < 8) (hb : (aluSource a b op).toNat < 8),
        t = s.aluWrite ⟨a.toNat, ha⟩
          (aluCompute (s.reg ⟨a.toNat, ha⟩) (s.reg ⟨(aluSource a b op).toNat, hb⟩) op) := by
  cases h : aluSupports s.extEnabled op
  · simp [aluApply, h]
  · simp only [aluApply, h, if_true, withRegs_eq_next, Host.Outcome.next.injEq, true_and]
    exact exists_congr fun _ => exists_congr fun _ => eq_comm

@[simp] theorem aluSource_not {a b : Byte} : aluSource a b .not = a := rfl

/-- Every operation but NOT uses its second index (R150, R173). -/
@[simp] theorem aluSource_of_ne {op : AluOp} {a b : Byte} (h : op ≠ .not) : aluSource a b op = b := by
  cases op <;> first | rfl | exact absurd rfl h

theorem aluInstr_eq_next {op : AluOp} {a b : Byte} :
    aluInstr m op a b s = .next t ↔ ∃ u, aluApply m op a b s = .next u ∧ t = u.advance m := by
  unfold aluInstr
  cases aluApply m op a b s with
  | next u => simp [eq_comm]
  | fault f => simp
  | refused r => simp

@[simp] theorem aluWrite_pc (d : RegIdx) (e : AluEffect) : (s.aluWrite d e).pc = s.pc := by cases e <;> rfl
@[simp] theorem aluWrite_halted (d : RegIdx) (e : AluEffect) : (s.aluWrite d e).halted = s.halted := by cases e <;> rfl
@[simp] theorem aluWrite_mem (d : RegIdx) (e : AluEffect) : (s.aluWrite d e).mem = s.mem := by cases e <;> rfl
@[simp] theorem aluWrite_out (d : RegIdx) (e : AluEffect) : (s.aluWrite d e).out = s.out := by cases e <;> rfl
@[simp] theorem aluWrite_extEnabled (d : RegIdx) (e : AluEffect) : (s.aluWrite d e).extEnabled = s.extEnabled := by
  cases e <;> rfl
@[simp] theorem aluWrite_faulted (d : RegIdx) (e : AluEffect) : (s.aluWrite d e).faulted = s.faulted := by
  cases e <;> rfl
theorem aluWrite_value (d : RegIdx) (v : Int) : s.aluWrite d (.value v) = s.writeReg d v := rfl
theorem aluWrite_flags (d : RegIdx) (f : Byte) : s.aluWrite d (.flags f) = s.setFl f := rfl

/-- CMP writes one of three values: L, G or E alone (R164). -/
theorem cmpFlags_eq (va vb : Byte) :
    cmpFlags va vb = if va.toNat < vb.toNat then 4#8 else if vb.toNat < va.toNat then 2#8 else 1#8 := by
  unfold cmpFlags flagBit
  by_cases h1 : va.toNat < vb.toNat
  · have h2 : ¬ vb.toNat < va.toNat := by omega
    have h3 : ¬ va.toNat = vb.toNat := by omega
    simp [h1, h2, h3]
  · by_cases h2 : vb.toNat < va.toNat
    · have h3 : ¬ va.toNat = vb.toNat := by omega
      simp [h1, h2, h3]
    · have h3 : va.toNat = vb.toNat := by omega
      simp [h3]

end Sys2Proof.Machine
end

