-- ==== Sys2Proof/Laws/Exec.lean ====
section
/-! SUPPORT. What each meaning can do, once: it answers a next state exactly under the conditions on its operands and
profile, and then this state. -/

namespace Sys2Proof.Machine

variable {s t : State}

theorem execHlt_next : execHlt s = .next t ↔ t = State.advance { s with halted := true } .hlt := by
  simp [execHlt, eq_comm]

theorem execLdi_next {r i : Byte} :
    execLdi r i s = .next t ↔ ∃ h : r.toNat < 8, t = (s.writeReg ⟨r.toNat, h⟩ i.toNat).advance .ldi := by
  simp only [execLdi, withReg_next_iff]

theorem execPrn_next {r : Byte} :
    execPrn r s = .next t ↔ ∃ h : r.toNat < 8, t = (s.emit (s.reg ⟨r.toNat, h⟩)).advance .prn := by
  simp only [execPrn, withReg_next_iff]

/-- The state a two-register ALU instruction leaves (R154, R164). -/
theorem aluInstr_next {m : Mnemonic} {op : AluOp} {a b : Byte} (hn : op ≠ .not) :
    aluInstr m op a b s = .next t ↔
      aluSupports s.extEnabled op = true ∧ ∃ (ha : a.toNat < 8) (hb : b.toNat < 8),
        t = (s.aluWrite ⟨a.toNat, ha⟩ (aluCompute (s.reg ⟨a.toNat, ha⟩) (s.reg ⟨b.toNat, hb⟩) op)).advance m := by
  simp only [aluInstr_eq_next, aluApply_eq_next, aluSource_of_ne hn]
  constructor
  · rintro ⟨u, ⟨hs, ha, hb, rfl⟩, rfl⟩
    exact ⟨hs, ha, hb, rfl⟩
  · rintro ⟨hs, ha, hb, rfl⟩
    exact ⟨_, ⟨hs, ha, hb, rfl⟩, rfl⟩

/-- A two-register EXT ALU instruction completes in the EXT profile alone. -/
theorem extAlu_next {m : Mnemonic} {op : AluOp} {a b : Byte} (hn : op ≠ .not) :
    requireExt m s (aluInstr m op a b s) = .next t ↔
      s.extEnabled = true ∧ ∃ (ha : a.toNat < 8) (hb : b.toNat < 8),
        t = (s.aluWrite ⟨a.toNat, ha⟩ (aluCompute (s.reg ⟨a.toNat, ha⟩) (s.reg ⟨b.toNat, hb⟩) op)).advance m := by
  rw [requireExt_eq_next, aluInstr_next hn]
  constructor
  · rintro ⟨h, -, hx⟩; exact ⟨h, hx⟩
  · rintro ⟨h, hx⟩; exact ⟨h, by rw [h]; cases op <;> rfl, hx⟩

/-- The state NOT leaves (R173): one register is checked, read and written. -/
theorem execNot_next {a : Byte} :
    execNot a s = .next t ↔ s.extEnabled = true ∧ ∃ h : a.toNat < 8,
      t = (s.writeReg ⟨a.toNat, h⟩ (255 - (s.reg ⟨a.toNat, h⟩).toNat : Int)).advance .not := by
  simp only [execNot, requireExt_eq_next, aluInstr_eq_next, aluApply_eq_next, aluSource_not, aluCompute, aluWrite_value]
  constructor
  · rintro ⟨h, u, ⟨-, ha, -, rfl⟩, rfl⟩
    exact ⟨h, ha, rfl⟩
  · rintro ⟨h, ha, rfl⟩
    exact ⟨h, _, ⟨by rw [h]; rfl, ha, ha, rfl⟩, rfl⟩

theorem execPush_next {r : Byte} :
    execPush r s = .next t ↔ ∃ h : r.toNat < 8,
      t = State.advance { s.decSp with mem := s.mem.store s.decSp.sp.toNat (s.decSp.reg ⟨r.toNat, h⟩) } .push := by
  simp only [execPush, withPush_eq, truncByte_toNat, withReg_next_iff]

theorem execPop_next {r : Byte} :
    execPop r s = .next t ↔ ∃ h : r.toNat < 8,
      t = (s.writeReg ⟨r.toNat, h⟩ (s.mem.load s.sp.toNat).toNat).incSp.advance .pop := by
  simp only [execPop, withPop_eq, withReg_next_iff]

theorem execCall_next {r : Byte} :
    execCall r s = .next t ↔ ∃ h : r.toNat < 8,
      t = State.jump { s.decSp with mem := s.mem.store s.decSp.sp.toNat (BitVec.ofNat 8 (s.pc + 2)) }
        (s.decSp.reg ⟨r.toNat, h⟩) := by
  have hpc : s.decSp.pc = s.pc := rfl
  have hlen : instrLength .call = 2 := rfl
  simp only [execCall, withPush_eq, hpc, hlen, truncByte_natCast, withReg_next_iff]
  exact Iff.rfl

theorem execRet_next : execRet s = .next t ↔ t = s.incSp.jump (s.mem.load s.sp.toNat) := by
  simp only [execRet, withPop_eq, Host.Outcome.next.injEq]
  exact eq_comm

theorem execJmp_next {r : Byte} :
    execJmp r s = .next t ↔ s.extEnabled = true ∧ ∃ h : r.toNat < 8, t = s.jump (s.reg ⟨r.toNat, h⟩) := by
  simp only [execJmp, requireExt_eq_next, withReg_next_iff]

theorem execJeq_next {r : Byte} :
    execJeq r s = .next t ↔ s.extEnabled = true ∧ ∃ h : r.toNat < 8,
      t = if s.flagE then s.jump (s.reg ⟨r.toNat, h⟩) else s.advance .jeq := by
  simp only [execJeq, requireExt_eq_next, withReg_next_iff]

theorem execJne_next {r : Byte} :
    execJne r s = .next t ↔ s.extEnabled = true ∧ ∃ h : r.toNat < 8,
      t = if s.flagE then s.advance .jne else s.jump (s.reg ⟨r.toNat, h⟩) := by
  simp only [execJne, requireExt_eq_next, withReg_next_iff]

end Sys2Proof.Machine
end

