-- ==== Sys2Proof/Laws/Fetch.lean ====
section
/-! SUPPORT. The fetch, the end of the run, and that a placed instruction is the one the next step runs. -/

namespace Sys2Proof.Machine

variable {s : State}

theorem regOf_of_lt {r : Byte} (h : r.toNat < 8) : regOf r = ⟨r.toNat, h⟩ := Fin.ext (Nat.mod_eq_of_lt h)

theorem outcome_eq_running : s.outcome = .running ↔ Running s := by
  unfold State.outcome Running
  cases s.faulted <;> cases s.halted <;> simp

theorem endOfRun_running (h : Running s) : endOfRun s = none := by
  simp [endOfRun, outcome_eq_running.2 h]

/-- A Running machine's step is its fetch and then its instruction (R109). -/
theorem step_running (h : Running s) :
    step s = match fetchInstr s with
      | .error f => .fault f
      | .ok i => exec i s := by
  cases hf : fetchInstr s <;> simp only [step, endOfRun_running h, hf]

theorem fetchWindow_eq_ok (h : WindowInMemory s) :
    fetchWindow s = .ok (s.byteAt s.pc, s.byteAt (s.pc + 1), s.byteAt (s.pc + 2)) := by
  have h0 : s.pc < Config.memSize := by omega
  have h1 : s.pc + 1 < Config.memSize := by omega
  simp [fetchWindow, read_eq_ok h0, read_eq_ok h1, read_eq_ok h, State.byteAt]

/-- The window's first address out of range is the one reported (R102). -/
theorem fetchWindow_eq_error (h : ¬ WindowInMemory s) :
    fetchWindow s = .error (.addressError s.pc none (.memory (max s.pc Config.memSize))) := by
  unfold fetchWindow
  by_cases h0 : s.pc < Config.memSize
  · by_cases h1 : s.pc + 1 < Config.memSize
    · have h2 : Config.memSize ≤ s.pc + 2 := by omega
      have e : max s.pc Config.memSize = s.pc + 2 := by omega
      simp [read_eq_ok h0, read_eq_ok h1, read_eq_error h2, e]
    · have h1' : Config.memSize ≤ s.pc + 1 := by omega
      have e : max s.pc Config.memSize = s.pc + 1 := by omega
      simp [read_eq_ok h0, read_eq_error h1', e]
  · have h0' : Config.memSize ≤ s.pc := by omega
    have e : max s.pc Config.memSize = s.pc := by omega
    simp [read_eq_error h0', e]

theorem fetchInstr_eq_ok {i : Instr} {rest : List Byte} (h : WindowInMemory s)
    (hd : decode s.extEnabled s.window = .ok (i, rest)) : fetchInstr s = .ok i := by
  simp only [State.window] at hd
  simp only [fetchInstr, fetchWindow_eq_ok h, hd]

theorem fetchInstr_eq_unknown (h : WindowInMemory s)
    (hb : ∀ m ∈ activeMap s.extEnabled, opcodeMap m ≠ s.byteAt s.pc) :
    fetchInstr s = .error (.unknownOpcode s.pc (s.byteAt s.pc)) := by
  simp only [fetchInstr, fetchWindow_eq_ok h, decode, decodeOpcode_eq_none hb]

/-- A step of a Running machine that answers a next state ran an instruction it decoded from its window (R102 to R104). -/
theorem step_next_running {t : State} (hr : Running s) (h : step s = .next t) :
    WindowInMemory s ∧ ∃ i rest, decode s.extEnabled s.window = .ok (i, rest) ∧ exec i s = .next t := by
  rw [step_running hr] at h
  by_cases hw : WindowInMemory s
  · refine ⟨hw, ?_⟩
    rcases decode_three (ext := s.extEnabled) (b := s.byteAt s.pc) (op0 := s.byteAt (s.pc + 1))
      (op1 := s.byteAt (s.pc + 2)) with ⟨i, rest, hd, -⟩ | ⟨hb, -⟩
    · exact ⟨i, rest, hd, by rw [fetchInstr_eq_ok hw hd] at h; exact h⟩
    · rw [fetchInstr_eq_unknown hw hb] at h; cases h
  · rw [fetchInstr, fetchWindow_eq_error hw] at h; cases h

/-- Every next state of a step: a Halted machine stays, a Running one ran a decoded instruction. -/
theorem step_next_cases {t : State} (h : step s = .next t) :
    (s.halted = true ∧ s.faulted = none ∧ t = s) ∨
      (Running s ∧ WindowInMemory s ∧
        ∃ i rest, decode s.extEnabled s.window = .ok (i, rest) ∧ exec i s = .next t) := by
  by_cases hr : Running s
  · exact .inr ⟨hr, step_next_running hr h⟩
  · refine .inl ?_
    unfold step endOfRun State.outcome at h
    unfold Running at hr
    cases hf : s.faulted <;> cases hh : s.halted <;> simp_all

theorem placeFetchWord_running (s : State) (nbits w : Nat) : Running (s.withFetchWord nbits w) := ⟨rfl, rfl⟩

theorem placeFetchWord_window (s : State) (nbits w : Nat) : WindowInMemory (s.withFetchWord nbits w) := by
  unfold WindowInMemory State.withFetchWord placeFetchWord
  dsimp only
  split
  · assumption
  · decide

/-- The window after the placement is the word's three bytes. -/
theorem withFetchWord_bytes (s : State) (nbits w : Nat) (h : Memory.wf s.mem) :
    (s.withFetchWord nbits w).window = [tableByte nbits w 0, tableByte nbits w 1, tableByte nbits w 2] := by
  have hw := placeFetchWord_window s nbits w
  unfold WindowInMemory at hw
  have key : ∀ k, (s.withFetchWord nbits w).byteAt k =
      (Memory.storeList s.mem (s.withFetchWord nbits w).pc
        [tableByte nbits w 0, tableByte nbits w 1, tableByte nbits w 2]).load k := fun _ => rfl
  have hlen : (s.withFetchWord nbits w).pc +
      [tableByte nbits w 0, tableByte nbits w 1, tableByte nbits w 2].length ≤ Config.memSize := by
    simp only [List.length_cons, List.length_nil]; omega
  simp only [State.window, key, load_storeList _ _ _ h hlen]
  simp

/-- The next step after `withFetchWord` runs the instruction the table word decodes to. -/
theorem step_withFetchWord (s : State) (nbits w : Nat) {i : Instr} (h : Memory.wf s.mem)
    (hd : decodeTableWord nbits w = some i) :
    step (s.withFetchWord nbits w) = exec i (s.withFetchWord nbits w) := by
  have hwin := withFetchWord_bytes s nbits w h
  unfold decodeTableWord at hd
  split at hd
  · rename_i j rest hj
    cases hd
    have hext : (s.withFetchWord nbits w).extEnabled =
        (s.extEnabled || (decodeOpcode false (tableByte nbits w 0)).isNone
          && (decodeOpcode true (tableByte nbits w 0)).isSome) := rfl
    have hdec : decode (s.withFetchWord nbits w).extEnabled (s.withFetchWord nbits w).window = .ok (i, rest) := by
      rw [hwin]
      cases hx : (s.withFetchWord nbits w).extEnabled with
      | true => exact hj
      | false =>
        have hsome : (decodeOpcode true (tableByte nbits w 0)).isSome := by
          cases ho : decodeOpcode true (tableByte nbits w 0) with
          | none => simp [decode, ho] at hj
          | some d => rfl
        have hfalse : (decodeOpcode false (tableByte nbits w 0)).isSome := by
          rw [hx, hsome] at hext
          cases hn : decodeOpcode false (tableByte nbits w 0) <;> simp_all
        rcases decode_three (ext := false) (b := tableByte nbits w 0) (op0 := tableByte nbits w 1)
          (op1 := tableByte nbits w 2) with ⟨k, rest', hk, -⟩ | ⟨hb, -⟩
        · have := decode_mono hk
          rw [hj] at this
          cases this
          exact hk
        · rw [decodeOpcode_eq_none hb] at hfalse; cases hfalse
    rw [step_running (placeFetchWord_running s nbits w),
      fetchInstr_eq_ok (placeFetchWord_window s nbits w) hdec]
  · cases hd

end Sys2Proof.Machine
end

