-- ==== Sys2Proof/Laws/PerInstr.lean ====
section
/-! SUPPORT. Statements about every instruction as syntax, one lemma per constructor. The family `EncodeShape`: an
instruction's bytes are its opcode, whose field AA counts the operand bytes that follow (R70, R71, R77, R83). -/

namespace Sys2Proof.Laws.EncodeShape

/-- The length is `1 + AA`, and AA is the number of operand bytes the format gives (R70, R83). -/
def Statement (i : Instr) : Prop :=
  (encode i).length = 1 + fieldAA (opcodeMap i.mnemonic) ∧ i.operandBytes.length = i.mnemonic.format.operandCount

theorem of_operands {i : Instr} (h : i.operandBytes.length = i.mnemonic.format.operandCount) : Statement i :=
  ⟨by rw [fieldAA_opcodeMap, ← h]; simp [encode, Nat.add_comm], h⟩

theorem hlt : Statement .hlt := of_operands rfl
theorem ldi (r i : Byte) : Statement (.ldi r i) := of_operands rfl
theorem prn (r : Byte) : Statement (.prn r) := of_operands rfl
theorem add (a b : Byte) : Statement (.add a b) := of_operands rfl
theorem mul (a b : Byte) : Statement (.mul a b) := of_operands rfl
theorem push (r : Byte) : Statement (.push r) := of_operands rfl
theorem pop (r : Byte) : Statement (.pop r) := of_operands rfl
theorem call (r : Byte) : Statement (.call r) := of_operands rfl
theorem ret : Statement .ret := of_operands rfl
theorem sub (a b : Byte) : Statement (.sub a b) := of_operands rfl
theorem cmp (a b : Byte) : Statement (.cmp a b) := of_operands rfl
theorem and (a b : Byte) : Statement (.and a b) := of_operands rfl
theorem or (a b : Byte) : Statement (.or a b) := of_operands rfl
theorem xor (a b : Byte) : Statement (.xor a b) := of_operands rfl
theorem not (a : Byte) : Statement (.not a) := of_operands rfl
theorem shl (a b : Byte) : Statement (.shl a b) := of_operands rfl
theorem shr (a b : Byte) : Statement (.shr a b) := of_operands rfl
theorem jmp (r : Byte) : Statement (.jmp r) := of_operands rfl
theorem jeq (r : Byte) : Statement (.jeq r) := of_operands rfl
theorem jne (r : Byte) : Statement (.jne r) := of_operands rfl

end Sys2Proof.Laws.EncodeShape
end

