-- ==== Sys2Proof/Laws/Run.lean ====
section
/-! SUPPORT. Runs of several steps, packaged once: the first step of a run, and the induction over runs. -/

namespace Sys2Proof.Machine

/-- A run that completes took a first step and ran on from there. -/
theorem run_succ_next (M : Host.Core) {n : Nat} {s t : M.State} (h : M.run (n + 1) s = .next t) :
    ∃ u, M.step s = .next u ∧ M.run n u = .next t := by
  rw [Host.Core.run] at h
  cases hs : M.step s with
  | next u => rw [hs] at h; exact ⟨u, rfl, h⟩
  | fault f => rw [hs] at h; cases h
  | refused r => rw [hs] at h; cases h

theorem run_succ_of_next (M : Host.Core) {n : Nat} {s u : M.State} (h : M.step s = .next u) :
    M.run (n + 1) s = M.run n u := by rw [Host.Core.run, h]

/-- What relates a state to itself and goes back over a step relates the ends of every completed run. -/
theorem run_induction {P : State → State → Prop} (hrefl : ∀ s, P s s)
    (hstep : ∀ s u t, step s = .next u → P u t → P s t) :
    ∀ (n : Nat) (s t : State), Host.Core.run Sys2Proof.core n s = .next t → P s t := by
  intro n
  induction n with
  | zero => intro s t h; cases h; exact hrefl s
  | succ n ih =>
    intro s t h
    obtain ⟨u, hs, hr⟩ := run_succ_next Sys2Proof.core h
    exact hstep s u t hs (ih u t hr)

end Sys2Proof.Machine
end

