-- ==== Sys2Proof/Tests/Slice0.lean ====
section
/-! SUPPORT. The model's own tests: words written out from 30_encoding.md R76 and R78, single steps from the vectors of
95_test_vectors.md (named in each comment) and the rules' own examples, the WellFormed smoke test, and for every statement
with hypotheses a concrete witness that meets them. -/

namespace Sys2Proof.Tests

open Sys2Proof.Machine

/-- A constructed machine with some registers set and bytes placed at its pc. -/
def machineAt (ext : Bool) (pc : Nat) (regs : List (RegIdx × Byte)) (bytes : List Byte) : State :=
  let s := regs.foldl (fun s p => s.writeReg p.1 p.2.toNat) (State.construct ext)
  { s with pc := pc, mem := Memory.storeList s.mem pc bytes }

/-- A machine with the byte `v` at address `a` as well. -/
def withByte (s : State) (a : Nat) (v : Byte) : State := { s with mem := s.mem.store a v }

def nextOf : Result → Option State
  | .next t => some t
  | .fault _ | .refused _ => none

def faultOf : Result → Option Fault
  | .fault f => some f
  | .next _ | .refused _ => none

/-- What a test looks at: one register, the pc. -/
def regPc (i : RegIdx) (r : Result) : Option (Byte × Nat) := (nextOf r).map fun t => (t.reg i, t.pc)

/-! ## Every constructor's word, bit by bit from R76, R78 and R73 -/

theorem test_decode_hlt : decode false [0b00000001#8] = .ok (.hlt, []) := by rfl
theorem test_decode_ldi : decode false [0b10000010#8, 0b00000011#8, 0b11111111#8] = .ok (.ldi 3#8 255#8, []) := by rfl
theorem test_decode_prn : decode false [0b01000111#8, 0b00000101#8] = .ok (.prn 5#8, []) := by rfl
theorem test_decode_add : decode false [0b10100000#8, 0b00000001#8, 0b00000010#8] = .ok (.add 1#8 2#8, []) := by rfl
theorem test_decode_mul : decode false [0b10100010#8, 0b00000001#8, 0b00000010#8] = .ok (.mul 1#8 2#8, []) := by rfl
theorem test_decode_push : decode false [0b01000101#8, 0b00000111#8] = .ok (.push 7#8, []) := by rfl
theorem test_decode_pop : decode false [0b01000110#8, 0b00000110#8] = .ok (.pop 6#8, []) := by rfl
theorem test_decode_call : decode false [0b01010000#8, 0b00000001#8] = .ok (.call 1#8, []) := by rfl
theorem test_decode_ret : decode false [0b00010001#8, 0b00000001#8] = .ok (.ret, [1#8]) := by rfl
theorem test_decode_sub : decode true [0b10100001#8, 0b00000001#8, 0b00000010#8] = .ok (.sub 1#8 2#8, []) := by rfl
theorem test_decode_cmp : decode true [0b10100111#8, 0b00000001#8, 0b00000010#8] = .ok (.cmp 1#8 2#8, []) := by rfl
theorem test_decode_and : decode true [0b10101000#8, 0b00000001#8, 0b00000010#8] = .ok (.and 1#8 2#8, []) := by rfl
theorem test_decode_or : decode true [0b10101010#8, 0b00000001#8, 0b00000010#8] = .ok (.or 1#8 2#8, []) := by rfl
theorem test_decode_xor : decode true [0b10101011#8, 0b00000001#8, 0b00000010#8] = .ok (.xor 1#8 2#8, []) := by rfl
theorem test_decode_not : decode true [0b01101001#8, 0b00000100#8, 0b00001001#8] = .ok (.not 4#8, [9#8]) := by rfl
theorem test_decode_shl : decode true [0b10101100#8, 0b00000001#8, 0b00000010#8] = .ok (.shl 1#8 2#8, []) := by rfl
theorem test_decode_shr : decode true [0b10101101#8, 0b00000001#8, 0b00000010#8] = .ok (.shr 1#8 2#8, []) := by rfl
theorem test_decode_jmp : decode true [0b01010100#8, 0b00000010#8] = .ok (.jmp 2#8, []) := by rfl
theorem test_decode_jeq : decode true [0b01010101#8, 0b00000010#8] = .ok (.jeq 2#8, []) := by rfl
theorem test_decode_jne : decode true [0b01010110#8, 0b00000011#8] = .ok (.jne 3#8, []) := by rfl

/-- R80: 0xFF and 0x00 are no instruction, an EXT opcode is none in the base profile. -/
theorem test_decode_rejects :
    decode true [0xFF#8, 0#8, 0#8] = .error (.unknownOpcode 0xFF#8) ∧
    decode true [0x00#8, 0#8, 0#8] = .error (.unknownOpcode 0x00#8) ∧
    decode false [0xA1#8, 2#8, 3#8] = .error (.unknownOpcode 0xA1#8) ∧
    decode false [0xA0#8, 2#8] = .error (.missingOperand 0xA0#8) ∧ decode true [] = .error .noBytes :=
  ⟨rfl, rfl, rfl, rfl, rfl⟩

/-- A table word counts its bits from the first byte: 0xA0 then 0x01 then 0x02 (opcode_table.json, ADD). -/
theorem test_decodeTableWord : decodeTableWord 24 0x0201A0 = some (.add 1#8 2#8) ∧
    decodeTableWord 8 0xFFFF01 = some .hlt ∧ decodeTableWord 16 0x0356 = some (.jne 3#8) ∧
    decodeTableWord 8 0xFF = none := ⟨rfl, rfl, rfl, rfl⟩

/-- R85's own examples. -/
theorem test_text : (Instr.ldi 0#8 8#8).text = "LDI R0,8" ∧ (Instr.push 0#8).text = "PUSH R0" ∧
    Instr.hlt.text = "HLT" := by decide +kernel

/-! ## WellFormed: an ill-formed term for each check -/

theorem test_wellFormed_refuses_register : Instr.wellFormed false (.ldi 8#8 0#8) = false := by decide
theorem test_wellFormed_refuses_second_register : Instr.wellFormed false (.add 7#8 8#8) = false := by decide
theorem test_wellFormed_refuses_ext_in_base : Instr.wellFormed false (.sub 0#8 1#8) = false := by decide
theorem test_wellFormed_accepts_any_immediate : Instr.wellFormed false (.ldi 7#8 255#8) = true := by decide

/-! ## One step each -/

/-- H2: HLT at 253 halts. -/
theorem test_hlt : (nextOf (step (machineAt false 253 [] [0x01#8]))).map (fun t => (t.halted, t.pc)) =
    some (true, 254) := by decide
/-- H3 to H5: the fetch window at 254, 255 and 256. -/
theorem test_window_top :
    [254, 255, 256].map (fun p => faultOf (step (machineAt false p [] []))) =
      [some (.addressError 254 none (.memory 256)), some (.addressError 255 none (.memory 256)),
       some (.addressError 256 none (.memory 256))] := by decide
/-- H6, H9: unknown opcodes, an EXT opcode in the base profile among them. -/
theorem test_unknown :
    [[0xFF#8], [0xA1#8, 2#8, 3#8]].map (fun bs => faultOf (step (machineAt false 0 [] bs))) =
      [some (.unknownOpcode 0 0xFF#8), some (.unknownOpcode 0 0xA1#8)] := by decide
/-- L2: LDI into SP. -/
theorem test_ldi : regPc 7 (step (machineAt false 0 [] [0x82#8, 7#8, 0x10#8])) = some (0x10#8, 3) := by decide
/-- L3: an index of 8. -/
theorem test_ldi_fault : faultOf (step (machineAt false 0 [] [0x82#8, 8#8, 1#8])) =
    some (.addressError 0 (some 0x82#8) (.register 8#8)) := by decide
/-- L6: PRN of the constructed SP. -/
theorem test_prn : (nextOf (step (machineAt false 0 [] [0x47#8, 7#8]))).map (fun t => (t.out, t.pc)) =
    some ([244#8], 2) := by decide
/-- A1: 250 + 10 is 4. -/
theorem test_add : regPc 0 (step (machineAt false 0 [(0, 250#8), (1, 10#8)] [0xA0#8, 0#8, 1#8])) = some (4#8, 3) := by
  decide
/-- A5, A6: the first index is checked first. -/
theorem test_add_faults :
    [[0xA0#8, 0#8, 8#8], [0xA0#8, 8#8, 9#8]].map (fun bs => faultOf (step (machineAt false 0 [] bs))) =
      [some (.addressError 0 (some 0xA0#8) (.register 8#8)), some (.addressError 0 (some 0xA0#8) (.register 8#8))] := by
  decide
/-- A9: 255 * 255 is 1. -/
theorem test_mul : regPc 0 (step (machineAt false 0 [(0, 255#8), (1, 255#8)] [0xA2#8, 0#8, 1#8])) = some (1#8, 3) := by
  decide
/-- E1: 3 - 5 is 254. -/
theorem test_sub : regPc 2 (step (machineAt true 0 [(2, 3#8), (3, 5#8)] [0xA1#8, 2#8, 3#8])) = some (254#8, 3) := by
  decide
/-- E6: the comparison is unsigned. -/
theorem test_cmp : (nextOf (step (machineAt true 0 [(0, 0x80#8), (1, 0x7F#8)] [0xA7#8, 0#8, 1#8]))).map
    (fun t => (t.fl, t.reg 0)) = some (2#8, 0x80#8) := by decide
/-- E3, E5: less and equal. -/
theorem test_cmp_flags :
    (nextOf (step (machineAt true 0 [(0, 3#8), (1, 7#8)] [0xA7#8, 0#8, 1#8]))).map State.fl = some 4#8 ∧
    (nextOf (step (machineAt true 0 [(0, 9#8)] [0xA7#8, 0#8, 0#8]))).map State.fl = some 1#8 := by decide
/-- E8. -/
theorem test_and : regPc 0 (step (machineAt true 0 [(0, 0xCC#8), (1, 0xAA#8)] [0xA8#8, 0#8, 1#8])) = some (0x88#8, 3) := by
  decide
/-- E9. -/
theorem test_or : regPc 0 (step (machineAt true 0 [(0, 0xCC#8), (1, 0xAA#8)] [0xAA#8, 0#8, 1#8])) = some (0xEE#8, 3) := by
  decide
/-- E10. -/
theorem test_xor : regPc 0 (step (machineAt true 0 [(0, 0xCC#8), (1, 0xAA#8)] [0xAB#8, 0#8, 1#8])) = some (0x66#8, 3) := by
  decide
/-- E14: NOT has one operand; the byte after it is not referenced. -/
theorem test_not : regPc 4 (step (machineAt true 0 [(4, 0x0F#8)] [0x69#8, 4#8, 9#8])) = some (0xF0#8, 2) := by decide
/-- R173, C2: NOT through the ALU's own interface does not use the second index, which may name no register. -/
theorem test_alu_not_second_index :
    regPc 4 (aluApply .not .not 4#8 9#8 (machineAt true 0 [(4, 0x0F#8)] [])) = some (0xF0#8, 0) := by decide
/-- E15, E17: a shift by 3, and by 8. -/
theorem test_shl :
    regPc 0 (step (machineAt true 0 [(0, 0x13#8), (1, 3#8)] [0xAC#8, 0#8, 1#8])) = some (0x98#8, 3) ∧
    regPc 0 (step (machineAt true 0 [(0, 0xFF#8), (1, 8#8)] [0xAC#8, 0#8, 1#8])) = some (0#8, 3) := by decide
/-- E19, E20: a shift by 7, and by 200. -/
theorem test_shr :
    regPc 0 (step (machineAt true 0 [(0, 0x80#8), (1, 7#8)] [0xAD#8, 0#8, 1#8])) = some (1#8, 3) ∧
    regPc 0 (step (machineAt true 0 [(0, 0xFF#8), (1, 200#8)] [0xAD#8, 0#8, 1#8])) = some (0#8, 3) := by decide
/-- S2: PUSH R7 stores the decremented SP. -/
theorem test_push_sp : (nextOf (step (machineAt false 0 [] [0x45#8, 7#8]))).map (fun t => (t.sp, t.byteAt 0xF3)) =
    some (0xF3#8, 0xF3#8) := by decide
/-- S3: PUSH at SP 0 wraps to 255. -/
theorem test_push_wraps : (nextOf (step (machineAt false 0x10 [(0, 9#8), (7, 0#8)] [0x45#8, 0#8]))).map
    (fun t => (t.sp, t.byteAt 0xFF, t.pc)) = some (0xFF#8, 9#8, 0x12) := by decide
/-- S6: POP R7 leaves the popped byte plus one. -/
theorem test_pop_sp : (nextOf (step (withByte (machineAt false 0 [(7, 0xF3#8)] [0x46#8, 7#8]) 0xF3 0x80#8))).map
    State.sp = some 0x81#8 := by decide
/-- S7: POP at SP 255 wraps to 0. -/
theorem test_pop_wraps : (nextOf (step (withByte (machineAt false 0 [(7, 0xFF#8)] [0x46#8, 1#8]) 0xFF 7#8))).map
    (fun t => (t.reg 1, t.sp)) = some (7#8, 0#8) := by decide
/-- J1: CALL pushes pc + 2. -/
theorem test_call : (nextOf (step (machineAt false 0x0A [(1, 0x20#8)] [0x50#8, 1#8]))).map
    (fun t => (t.sp, t.byteAt 0xF3, t.pc)) = some (0xF3#8, 0x0C#8, 0x20) := by decide
/-- J2: CALL R7 jumps to the decremented SP. -/
theorem test_call_sp : (nextOf (step (machineAt false 0x0A [] [0x50#8, 7#8]))).map
    (fun t => (t.byteAt 0xF3, t.pc)) = some (0x0C#8, 0xF3) := by decide
/-- J5. -/
theorem test_ret : (nextOf (step (withByte (machineAt false 0x20 [(7, 0xF3#8)] [0x11#8]) 0xF3 0x0C#8))).map
    (fun t => (t.pc, t.sp)) = some (0x0C, 0xF4#8) := by decide
/-- J7. -/
theorem test_jmp : (nextOf (step (machineAt true 0 [(2, 0x10#8)] [0x54#8, 2#8]))).map State.pc = some 0x10 := by decide
/-- J10, J11: taken and not. -/
theorem test_jeq : [1#8, 4#8].map (fun f => (nextOf (step { machineAt true 8 [(2, 0x10#8)] [0x55#8, 2#8] with
    fl := f })).map State.pc) = [some 0x10, some 10] := by decide
/-- J12: the index is checked although the jump is not taken. -/
theorem test_jeq_fault : faultOf (step (machineAt true 8 [] [0x55#8, 8#8])) =
    some (.addressError 8 (some 0x55#8) (.register 8#8)) := by decide
/-- J13, J14: taken and not. -/
theorem test_jne : [2#8, 1#8].map (fun f => (nextOf (step { machineAt true 20 [(3, 4#8)] [0x56#8, 3#8] with
    fl := f })).map State.pc) = [some 4, some 22] := by decide
/-- H8: a Halted machine stays. -/
theorem test_halted : nextOf (step { State.reset with halted := true }) = some { State.reset with halted := true } := by
  decide
/-- J8 at exec: an EXT instruction in the base profile. -/
theorem test_base_profile_jmp : faultOf (exec (.jmp 2#8) State.reset) = some (.unknownOpcode 0 0x54#8) := by decide

/-- The placed table word is what the next step runs, EXT rows among them, from the reset state. -/
theorem test_withFetchWord :
    regPc 0 (step (State.reset.withFetchWord 24 0x080082)) = some (8#8, 3) ∧
    (nextOf (step (State.reset.withFetchWord 24 0x0100A7))).map State.fl = some 1#8 ∧
    (nextOf (step (State.reset.withFetchWord 8 0x01))).map State.extEnabled = some false := by decide

/-- O2, O3: a program of 257 bytes is turned away; of two loads the later wins. -/
theorem test_loadBytes :
    (State.reset.loadBytes (List.replicate 257 0#8)).toOption = none ∧
    ((State.reset.loadBytes [0x01#8]).bind fun s => s.loadBytes [0x82#8, 0#8, 5#8]).toOption.map
      (fun s => (s.byteAt 0, s.byteAt 1, s.byteAt 2)) = some (0x82#8, 0#8, 5#8) := by decide +kernel

/-- P1 in the host's terms: three steps, Halted, one element, rendered `8`. -/
theorem test_session_p1 :
    ((Session.construct false).loadBytes [0x82#8, 0#8, 8#8, 0x47#8, 0#8, 1#8]).map (fun h =>
      let t := (h.run 5).machine
      (t.outcome, t.pc, t.out, t.renderOut ['\n'])) = .ok (.halted, 6, [8#8], ['8', '\n']) := by rfl

/-- R252, R256: the record and the number of a fault. -/
theorem test_fault_record :
    let f := Fault.addressError 3 (some 0xA0#8) (.register 8#8)
    (f.kind.code, f.pc, f.opcode, f.detail) = (1, 3, some 0xA0#8, .address (.register 8#8)) := by decide

/-- R266, R32: the accessor shows FL in the EXT profile alone. -/
theorem test_snapshot : (State.reset.snapshot 0 2).fl = none ∧ ((State.construct true).snapshot 254 3).fl = some 0#8 ∧
    ((State.construct true).snapshot 254 3).window = [0#8, 0#8] := by decide

/-! ## Witnesses: concrete states and operands that meet the hypotheses of the statements -/

theorem test_witness_UnknownOpcodesFault : ∃ s : State, Running s ∧ WindowInMemory s ∧
    ∀ m ∈ activeMap s.extEnabled, opcodeMap m ≠ s.byteAt s.pc := ⟨machineAt false 253 [] [0xFF#8], by decide⟩

theorem test_witness_UnknownOpcodesFault_AA3 : fieldAA 0xC0#8 = 3 := by decide

theorem test_witness_UnusedOperandBytes :
    (Mnemonic.ret ∈ activeMap false ∧ Mnemonic.ret.format = .z ∧ ∃ s : State, Running s ∧ WindowInMemory s ∧
      s.extEnabled = false ∧ s.byteAt s.pc = opcodeMap .ret) ∧
    (Mnemonic.not ∈ activeMap true ∧ Mnemonic.not.format = .r ∧ ∃ s : State, Running s ∧ WindowInMemory s ∧
      s.extEnabled = true ∧ s.byteAt s.pc = opcodeMap .not ∧ s.byteAt (s.pc + 1) = 4#8) :=
  ⟨⟨by decide, rfl, machineAt false 0 [] [0x11#8, 9#8], by decide⟩,
    ⟨by decide, rfl, machineAt true 0 [] [0x69#8, 4#8, 9#8], by decide⟩⟩

theorem test_witness_StepRunsTheDecodedInstruction : ∃ (s : State) (i : Instr) (rest : List Byte), Running s ∧
    WindowInMemory s ∧ decode s.extEnabled s.window = .ok (i, rest) :=
  ⟨machineAt false 253 [] [0xA0#8, 1#8, 2#8], .add 1#8 2#8, [], by decide, by decide, rfl⟩

/-- Both sides of the boundary of the window, and the three pcs of the two outcomes (also `test_window_top`). -/
theorem test_witness_FetchWindow : ∀ p ∈ [254, 255, 256, 257], Running { State.reset with pc := p } ∧
    254 ≤ State.pc { State.reset with pc := p } := by decide

theorem test_witness_EndedMachine :
    (State.halted { State.reset with halted := true } = true ∧ State.faulted { State.reset with halted := true } = none) ∧
    State.faulted { State.reset with faulted := some (.unknownOpcode 0 0#8) } = some (.unknownOpcode 0 0#8) := by decide

theorem test_witness_StepReportsTheFirstFault :
    (Running State.reset ∧ firstFault State.reset = some (.unknownOpcode 0 0#8)) ∧
    (Running (machineAt false 0 [] [1#8]) ∧ firstFault (machineAt false 0 [] [1#8]) = none) := by decide

/-- Register 8 is the first that is none; 7 is the last that is one. -/
theorem test_witness_InvalidRegisterIndex :
    (Instr.add 7#8 8#8).available false = true ∧
    ((Instr.add 7#8 8#8).regOperands.find? fun k => decide (8 ≤ k.toNat)) = some 8#8 ∧
    ((Instr.add 255#8 8#8).regOperands.find? fun k => decide (8 ≤ k.toNat)) = some 255#8 := by decide

theorem test_witness_BaseProfile : State.reset.extEnabled = false ∧ (Instr.jeq 2#8).mnemonic.isExt = true := by decide

theorem test_witness_NoUnsupported : State.reset.faulted = none := by decide

theorem test_witness_AluRejects : State.reset.extEnabled = false ∧ AluOp.sub ≠ .add ∧ AluOp.sub ≠ .mul := by decide

theorem test_witness_AluChangesItsDestination :
    (∃ t, aluApply .cmp .cmp 7#8 0#8 (State.construct true) = .next t) ∧
    ∃ t, aluApply .add .add 7#8 0#8 State.reset = .next t := ⟨⟨_, rfl⟩, ⟨_, rfl⟩⟩

theorem test_witness_Hlt : Running { State.reset with pc := 254 } ∧
    ∃ (i : Instr) (t : State), i ≠ .hlt ∧ exec i State.reset = .next t := ⟨by decide, .ret, _, by decide, rfl⟩

/-- The clauses of every instruction with one register operand, at 7 and at 8: LDI, PRN, PUSH, POP, CALL (R26). -/
theorem test_witness_OneRegister : (7#8 : Byte).toNat < 8 ∧ 8 ≤ (8#8 : Byte).toNat := by decide

/-- The three clauses of AluTemplate and of CMP: both valid, the first invalid, the second invalid, in each profile. -/
theorem test_witness_AluTemplate :
    (Instr.add 7#8 7#8).available State.reset.extEnabled = true ∧
    (Instr.shr 7#8 7#8).available (State.construct true).extEnabled = true ∧
    ((7#8 : Byte).toNat < 8 ∧ (7#8 : Byte).toNat < 8) ∧ 8 ≤ (8#8 : Byte).toNat ∧
    ((7#8 : Byte).toNat < 8 ∧ 8 ≤ (8#8 : Byte).toNat) := by decide

/-- CMP, NOT and the jumps: the EXT profile with a valid and an invalid index. -/
theorem test_witness_ExtOperands : (State.construct true).extEnabled = true ∧ (7#8 : Byte).toNat < 8 ∧
    8 ≤ (8#8 : Byte).toNat := by decide

/-- `exec i s = .next t` for an instruction of each kind: the one hypothesis of the rules over all instructions. -/
theorem test_witness_ExecNext :
    (∃ t, exec (.cmp 0#8 7#8) (State.construct true) = .next t) ∧ (∃ t, exec (.prn 7#8) State.reset = .next t) ∧
    (∃ t, exec (.push 7#8) State.reset = .next t) ∧ (∃ t, exec (.call 0#8) State.reset = .next t) ∧
    (∃ t, exec .hlt State.reset = .next t) ∧ (∃ t, exec (.jne 7#8) (State.construct true) = .next t) :=
  ⟨⟨_, rfl⟩, ⟨_, rfl⟩, ⟨_, rfl⟩, ⟨_, rfl⟩, ⟨_, rfl⟩, ⟨_, rfl⟩⟩

theorem test_witness_DefaultAdvance : fieldC (opcodeMap .prn) = false ∧ ∃ t, exec (.prn 7#8) State.reset = .next t :=
  ⟨by decide, _, rfl⟩

theorem test_witness_Halted : ∃ s t : State, s.halted = true ∧ step s = .next t :=
  ⟨{ State.reset with halted := true }, _, rfl, rfl⟩

theorem test_witness_Frames :
    (∃ t, exec (.ldi 0#8 1#8) State.reset = .next t) ∧ (1 : RegIdx) ∉ destRegs (.ldi 0#8 1#8) ∧
    (Instr.pop 0#8).mnemonic ≠ .push ∧ (Instr.pop 0#8).mnemonic ≠ .call ∧
    (∃ t, exec (.pop 0#8) State.reset = .next t) ∧
    storedAt State.reset (.push 0#8) = some 0xF3 ∧ (0xF2 : Nat) ≠ 0xF3 :=
  ⟨⟨_, rfl⟩, by decide, by decide, by decide, ⟨_, rfl⟩, by decide, by decide⟩

/-- FL 5 and FL 1 differ and agree on bit 0. -/
theorem test_witness_OnlyTheEqualFlagIsRead :
    (5#8 : Byte).getLsbD 0 = ({ State.construct true with fl := 1#8 } : State).fl.getLsbD 0 := by decide

/-- The last address inside memory and the first outside. -/
theorem test_witness_Memory : Memory.wf [(3, 9#8), (255, 1#8)] ∧
    Memory.write [(3, 9#8)] 255 257 = .ok [(3, 9#8), (255, 1#8)] ∧
    Memory.write [(3, 9#8)] 256 1 = .error (.memory 256) ∧ (255 : Nat) < 256 :=
  ⟨by decide, by rfl, by rfl, by decide⟩

theorem test_witness_MemoriesThatReadAlike : Memory.wf [(3, 9#8)] ∧ Memory.wf [(3, 9#8)] ∧
    ∀ a : Nat, Memory.load [(3, 9#8)] a = Memory.load [(3, 9#8)] a := ⟨by decide, by decide, fun _ => rfl⟩

/-- PUSH R0 at pc 0xF1 stores HLT's opcode at 0xF3, where the next instruction lies. -/
theorem test_witness_PushedByteIsFetchedNext : ∃ (s t : State) (i : Instr) (rest : List Byte), s.mem.wf ∧
    (0#8 : Byte).toNat < 7 ∧ exec (.push 0#8) s = .next t ∧ t.pc = s.decSp.sp.toNat ∧ Running t ∧ WindowInMemory t ∧
    decode t.extEnabled [s.reg (regOf 0#8), s.byteAt (t.pc + 1), s.byteAt (t.pc + 2)] = .ok (i, rest) :=
  ⟨machineAt false 0xF1 [(0, 1#8)] [0x45#8, 0#8], _, .hlt, [0#8, 0#8], by decide, by decide, rfl, by decide, by decide,
    by decide, rfl⟩

theorem test_witness_PushThenPop : ∃ s t u : State, s.mem.wf ∧ (0#8 : Byte) ≠ 7#8 ∧ (1#8 : Byte) ≠ 7#8 ∧
    exec (.push 0#8) s = .next t ∧ exec (.pop 1#8) t = .next u :=
  ⟨machineAt false 0 [(0, 42#8)] [], _, _, by decide, by decide, by decide, rfl, rfl⟩

theorem test_witness_ConditionalJump : ∃ s t u v : State, exec (.cmp 0#8 1#8) s = .next t ∧
    exec (.jeq 2#8) t = .next u ∧ exec (.jne 2#8) t = .next v := ⟨State.construct true, _, _, _, rfl, rfl, rfl⟩

theorem balanced_pair : Balanced 1 (.push 0#8 :: ([] ++ [.pop 1#8])) := .pair 0#8 1#8 0 [] (by decide) .nil

theorem test_witness_CallReturns : ∃ s s₁ t u : State, s.mem.wf ∧ WindowInMemory s ∧ (1 : Nat) ≤ 255 ∧
    Balanced 1 (.push 0#8 :: ([] ++ [.pop 1#8])) ∧ exec (.call 2#8) s = .next s₁ ∧
    execList (.push 0#8 :: ([] ++ [.pop 1#8])) s₁ = .next t ∧ exec .ret t = .next u :=
  ⟨machineAt false 253 [(2, 0x20#8)] [], _, _, _, by decide, by decide, by decide, balanced_pair, rfl, rfl, rfl⟩

theorem test_witness_NestedCalls : ∃ s s₁ s₂ s₃ s₄ s₅ s₆ s₇ : State, s.mem.wf ∧ WindowInMemory s ∧ WindowInMemory s₂ ∧
    Balanced 1 (.push 0#8 :: ([] ++ [.pop 1#8])) ∧ Balanced 0 [] ∧
    exec (.call 2#8) s = .next s₁ ∧ execList (.push 0#8 :: ([] ++ [.pop 1#8])) s₁ = .next s₂ ∧
    exec (.call 3#8) s₂ = .next s₃ ∧ execList [] s₃ = .next s₄ ∧ exec .ret s₄ = .next s₅ ∧
    execList [] s₅ = .next s₆ ∧ exec .ret s₆ = .next s₇ :=
  ⟨machineAt false 10 [(2, 0x20#8), (3, 0x30#8)] [], _, _, _, _, _, _, _, by decide, by decide, by decide, balanced_pair,
    .nil, rfl, rfl, rfl, rfl, rfl, rfl, rfl⟩

theorem construct_inv (ext : Bool) (sp : Byte) : Memory.wf (State.construct ext sp).mem := (by decide : Memory.wf [])

/-- R281: another `SP_RESET`. -/
theorem test_construct_sp : (State.construct true 0x80#8).sp = 0x80#8 ∧ State.reset.sp = 0xF4#8 := by decide

theorem test_witness_StepKeepsTheInvariant : ∃ s t : State, StateInv s ∧ step s = .next t :=
  ⟨machineAt false 253 [] [0xA0#8, 1#8, 2#8], _,
    ⟨by decide, by decide, .inl rfl, fun _ => rfl, fun h => absurd h (by decide)⟩, rfl⟩

theorem test_witness_EveryLoadedRun : ∃ s t : State,
    (State.construct false).loadBytes [0x82#8, 0#8, 8#8, 1#8] = .ok s ∧ Host.Core.run Sys2Proof.core 2 s = .next t :=
  ⟨_, _, rfl, rfl⟩

/-- 256 bytes are the most that load, 257 the least that do not. -/
theorem test_witness_LoadBytes : State.reset.mem.wf ∧ (Session.construct false).started = false ∧ (List.replicate 256 1#8).length ≤ 256 ∧
    256 < (List.replicate 257 1#8).length := by decide +kernel

theorem test_witness_FaultEndsTheRun : ∃ f : Fault, Running (Session.construct false).machine ∧
    step (Session.construct false).machine = .fault f := ⟨_, by decide, rfl⟩

end Sys2Proof.Tests
end

/-! SUPPORT. What no instruction writes: the frame of `exec` over the whole state, and the rules for `halted` that follow
from it (R34). -/

namespace Sys2Proof.Machine

variable {s t : State}

/-- The ALU writes a register or FL and its handler advances pc; the other fields are kept (R150, R107). -/
theorem aluInstr_frame {m : Mnemonic} {op : AluOp} {a b : Byte} (h : aluInstr m op a b s = .next t) :
    t = { s with x := t.x, pc := t.pc, fl := t.fl } := by
  obtain ⟨u, hu, rfl⟩ := aluInstr_eq_next.1 h
  obtain ⟨-, ha, hb, rfl⟩ := aluApply_eq_next.1 hu
  cases aluCompute (s.reg ⟨a.toNat, ha⟩) (s.reg ⟨(aluSource a b op).toNat, hb⟩) op with
  | value v => rfl
  | flags f => rfl

/-- The same for an EXT instruction, which runs in its own profile alone. -/
theorem extAluInstr_frame {m : Mnemonic} {op : AluOp} {a b : Byte}
    (h : requireExt m s (aluInstr m op a b s) = .next t) : t = { s with x := t.x, pc := t.pc, fl := t.fl } :=
  aluInstr_frame (requireExt_eq_next.1 h).2

/-- Beside registers, pc, memory, FL and output, an instruction that completes changes only `halted`, and only HLT does:
the profile and the recorded fault are kept (R34, R83, R254). -/
theorem exec_frame {i : Instr} (h : exec i s = .next t) :
    t = { s with
      x := t.x, pc := t.pc, mem := t.mem, fl := t.fl, out := t.out
      halted := decide (i = .hlt) || s.halted } := by
  cases i with
  | hlt => obtain rfl := execHlt_next.1 h; rfl
  | ldi r v => obtain ⟨_, rfl⟩ := execLdi_next.1 h; rfl
  | prn r => obtain ⟨_, rfl⟩ := execPrn_next.1 h; rfl
  | push r => obtain ⟨_, rfl⟩ := execPush_next.1 h; rfl
  | pop r => obtain ⟨_, rfl⟩ := execPop_next.1 h; rfl
  | call r => obtain ⟨_, rfl⟩ := execCall_next.1 h; rfl
  | ret => obtain rfl := execRet_next.1 h; rfl
  | jmp r => obtain ⟨-, _, rfl⟩ := execJmp_next.1 h; rfl
  | jeq r => obtain ⟨-, _, rfl⟩ := execJeq_next.1 h; cases s.flagE <;> rfl
  | jne r => obtain ⟨-, _, rfl⟩ := execJne_next.1 h; cases s.flagE <;> rfl
  | add a b | mul a b => rw [aluInstr_frame h]; rfl
  | sub a b | cmp a b | and a b | or a b | xor a b | not a | shl a b | shr a b => rw [extAluInstr_frame h]; rfl

theorem exec_halted {i : Instr} (h : exec i s = .next t) : t.halted = (decide (i = .hlt) || s.halted) :=
  congrArg State.halted (exec_frame h)

/-- A step from a Halted machine answers the same machine (R101, R34). -/
theorem step_of_halted (hs : s.halted = true) (h : step s = .next t) : t = s := by
  obtain ⟨-, -, rfl⟩ | ⟨⟨hrunning, -⟩, -⟩ := step_next_cases h
  · rfl
  · rw [hs] at hrunning; cases hrunning

/-- Settles O31: construction by the field's value, the instructions by the frame of `exec`, the steps by R101. -/
theorem haltedIsSetByHltAlone : Obligations.HaltedIsSetByHltAlone := by
  refine ⟨fun _ _ => rfl, fun i s t h => ?_, fun _ _ => step_of_halted⟩
  rw [exec_halted h, Bool.or_eq_true, decide_eq_true_iff, or_comm]

end Sys2Proof.Machine

/-! SUPPORT. What faults an instruction can raise: one inversion law for `exec` (R26, R80), and from it that both memory
accesses of an instruction stay inside memory (R51). -/

namespace Sys2Proof.Machine

variable {s : State} {f : Fault} {m : Mnemonic}

/-- `f` is the record of the first of the register bytes `rs` that names no register, for the mnemonic `m` (R26, R252). -/
def RegisterFault (m : Mnemonic) (s : State) (rs : List Byte) (f : Fault) : Prop :=
  ∃ r, (rs.find? fun k => decide (8 ≤ k.toNat)) = some r ∧ f = .addressError s.pc (some (opcodeMap m)) (.register r)

theorem not_registerFault_nil : ¬ RegisterFault m s [] f := by simp [RegisterFault]

/-- A valid register byte passes the check on to the bytes after it. -/
theorem registerFault_cons_of_lt {r : Byte} {rs : List Byte} (h : r.toNat < 8) :
    RegisterFault m s (r :: rs) f ↔ RegisterFault m s rs f := by
  simp [RegisterFault, Nat.not_le.2 h]

/-- An invalid register byte is the one reported. -/
theorem registerFault_cons_of_ge {r : Byte} {rs : List Byte} (h : 8 ≤ r.toNat) :
    RegisterFault m s (r :: rs) f ↔ f = .addressError s.pc (some (opcodeMap m)) (.register r) := by
  simp [RegisterFault, h]

/-- A checked register operand faults as its continuation does, after its own check. -/
theorem withReg_eq_fault {r : Byte} {rs : List Byte} {k : RegIdx → Result}
    (hk : ∀ d, k d = .fault f ↔ RegisterFault m s rs f) :
    withReg m r s k = .fault f ↔ RegisterFault m s (r :: rs) f := by
  by_cases h : r.toNat < 8
  · rw [withReg_of_lt h, registerFault_cons_of_lt h, hk]
  · have h : 8 ≤ r.toNat := Nat.le_of_not_lt h
    rw [withReg_of_ge h, registerFault_cons_of_ge h, Host.Outcome.fault.injEq]
    exact eq_comm

/-- The common case: nothing but the register operand can fault. -/
theorem withReg_fault_iff {r : Byte} {k : RegIdx → Result} (hk : ∀ d, k d ≠ .fault f) :
    withReg m r s k = .fault f ↔ RegisterFault m s [r] f :=
  withReg_eq_fault fun d => iff_of_false (hk d) not_registerFault_nil

theorem withPush_ne_fault {value : State → Int} {g : State → State} :
    withPush m value s (fun u => .next (g u)) ≠ .fault f := by simp [withPush_eq]

theorem withPop_ne_fault {g : Byte → State} : withPop m s (fun v => .next (g v)) ≠ .fault f := by simp [withPop_eq]

/-- Advancing pc after the ALU adds no fault. -/
theorem aluInstr_eq_fault {op : AluOp} {a b : Byte} : aluInstr m op a b s = .fault f ↔ aluApply m op a b s = .fault f := by
  unfold aluInstr
  cases aluApply m op a b s <;> simp

/-- With a tag of its profile the ALU faults for its indices alone (R153). -/
theorem aluInstr_fault_iff {op : AluOp} {a b : Byte} (hs : aluSupports s.extEnabled op = true) :
    aluInstr m op a b s = .fault f ↔ RegisterFault m s [a, aluSource a b op] f := by
  rw [aluInstr_eq_fault, aluApply, if_pos hs]
  exact withReg_eq_fault fun _ => withReg_fault_iff nofun

/-- The EXT profile implements every tag (R151). -/
theorem aluSupports_of_ext (op : AluOp) (h : s.extEnabled = true) : aluSupports s.extEnabled op = true := by
  rw [h]; cases op <;> rfl

/-- NOT's one index, checked as both of the ALU's, faults as one (R173). -/
theorem registerFault_pair_self {a : Byte} : RegisterFault m s [a, a] f ↔ RegisterFault m s [a] f := by
  by_cases h : a.toNat < 8
  · rw [registerFault_cons_of_lt h]
  · simp only [registerFault_cons_of_ge (Nat.le_of_not_lt h)]

/-- An instruction raises `f`: it is not in the profile, or else one of its register bytes names no register. -/
def RaisesFault (i : Instr) (s : State) (f : Fault) : Prop :=
  (i.available s.extEnabled = false ∧ f = .unknownOpcode s.pc (opcodeMap i.mnemonic)) ∨
    (i.available s.extEnabled = true ∧ RegisterFault i.mnemonic s i.regOperands f)

/-- An instruction of the base profile faults for its register bytes alone. -/
theorem exec_eq_fault_of_base {i : Instr} (hb : i.mnemonic.isExt = false)
    (h : exec i s = .fault f ↔ RegisterFault i.mnemonic s i.regOperands f) : exec i s = .fault f ↔ RaisesFault i s f := by
  simpa [RaisesFault, Instr.available, hb] using h

/-- An EXT instruction faults for the profile first, then as its meaning in that profile does (R80, R258). -/
theorem exec_eq_fault_of_ext {i : Instr} {k : Result} (he : i.mnemonic.isExt = true)
    (hexec : exec i s = requireExt i.mnemonic s k)
    (hk : s.extEnabled = true → (k = .fault f ↔ RegisterFault i.mnemonic s i.regOperands f)) :
    exec i s = .fault f ↔ RaisesFault i s f := by
  rw [hexec]
  cases h : s.extEnabled with
  | false => simp [RaisesFault, Instr.available, he, h, eq_comm]
  | true => simp [RaisesFault, Instr.available, he, h, hk h]

/-- The two-register ALU instructions of the EXT profile. -/
theorem exec_eq_fault_of_extAlu {i : Instr} {op : AluOp} {a b : Byte} (he : i.mnemonic.isExt = true)
    (hexec : exec i s = requireExt i.mnemonic s (aluInstr i.mnemonic op a b s))
    (hr : i.regOperands = [a, aluSource a b op]) : exec i s = .fault f ↔ RaisesFault i s f :=
  exec_eq_fault_of_ext he hexec fun h => by rw [hr, aluInstr_fault_iff (aluSupports_of_ext op h)]

/-- Every fault of an instruction is for its profile or its register bytes; a stack access raises none (R26, R80, R51). -/
theorem exec_eq_fault {i : Instr} : exec i s = .fault f ↔ RaisesFault i s f := by
  cases i with
  | hlt => exact exec_eq_fault_of_base rfl (iff_of_false nofun not_registerFault_nil)
  | ret => exact exec_eq_fault_of_base rfl (iff_of_false withPop_ne_fault not_registerFault_nil)
  | ldi _ _ | prn _ => exact exec_eq_fault_of_base rfl (withReg_fault_iff fun _ => nofun)
  | push _ | call _ => exact exec_eq_fault_of_base rfl (withReg_fault_iff fun _ => withPush_ne_fault)
  | pop _ => exact exec_eq_fault_of_base rfl (withReg_fault_iff fun _ => withPop_ne_fault)
  | add _ _ | mul _ _ => exact exec_eq_fault_of_base rfl (aluInstr_fault_iff rfl)
  | sub _ _ | cmp _ _ | and _ _ | or _ _ | xor _ _ | shl _ _ | shr _ _ => exact exec_eq_fault_of_extAlu rfl rfl rfl
  | not _ =>
    exact exec_eq_fault_of_ext rfl rfl fun h =>
      (aluInstr_fault_iff (aluSupports_of_ext .not h)).trans registerFault_pair_self
  | jmp _ | jeq _ | jne _ => exact exec_eq_fault_of_ext rfl rfl fun _ => withReg_fault_iff fun _ => nofun

/-- No instruction leaves memory: its two stack accesses are at an address taken from a byte (R51, R257). -/
theorem exec_ne_memoryFault {i : Instr} {pc a : Nat} {b : Option Byte} :
    exec i s ≠ .fault (.addressError pc b (.memory a)) := by
  rw [Ne, exec_eq_fault]
  rintro (⟨-, h⟩ | ⟨-, r, -, h⟩)
  · cases h
  · cases h

/-- Settles O41: the accesses by the laws of memory, an instruction by the law of its faults. -/
theorem memoryAccessesAreRangeChecked : Obligations.MemoryAccessesAreRangeChecked := by
  refine ⟨fun m a v h => ?_, fun m a v h => ?_, byte_lt_memSize, fun _ _ _ _ _ => exec_ne_memoryFault⟩
  · exact ⟨read_eq_error h, write_eq_error h⟩
  · exact ⟨⟨_, read_eq_ok h⟩, _, write_eq_ok h⟩

end Sys2Proof.Machine

/-! SUPPORT. The opcode bytes: the fields of the twenty rows (R77), and which bytes are unknown, and how many (R80). -/

namespace Sys2Proof

/-- Field B marks the ALU instructions (R77). -/
theorem fieldB_opcodeMap (m : Mnemonic) :
    fieldB (opcodeMap m) = true ↔ m ∈ [.add, .mul, .sub, .cmp, .and, .or, .xor, .not, .shl, .shr] := by
  cases m <;> decide

/-- Field C marks the instructions that set pc (R77). -/
theorem fieldC_opcodeMap (m : Mnemonic) : fieldC (opcodeMap m) = true ↔ m ∈ [.call, .ret, .jmp, .jeq, .jne] := by
  cases m <;> decide

/-- Settles O3: AA is the format's operand count, read off the table row by row, as are B and C. -/
theorem opcodeFieldsAgreeWithTheTable : Obligations.OpcodeFieldsAgreeWithTheTable := by
  refine fun m => ⟨?_, fieldB_opcodeMap m, fieldC_opcodeMap m⟩
  rw [fieldAA_opcodeMap]
  cases m <;> rfl

theorem operandCount_le_two (f : Format) : f.operandCount ≤ 2 := by cases f <;> decide

/-- No instruction has three operands, so no opcode has AA = 3 (R80). -/
theorem opcodeMap_ne_of_fieldAA_eq_three {b : Byte} (h : fieldAA b = 3) (m : Mnemonic) : opcodeMap m ≠ b := by
  rintro rfl
  have := operandCount_le_two m.format
  rw [fieldAA_opcodeMap] at h
  omega

theorem isExt_of_mem_extList {m : Mnemonic} (h : m ∈ Mnemonic.extList) : m.isExt = true := by
  have hall : ∀ n ∈ Mnemonic.extList, n.isExt = true := by decide
  exact hall m h

/-- No opcode of the base map is an EXT one (R78, R80). -/
theorem opcodeMap_ne_of_mem_extList {m n : Mnemonic} (hm : m ∈ Mnemonic.extList) (hn : n ∈ activeMap false) :
    opcodeMap n ≠ opcodeMap m := by
  intro h
  obtain rfl := opcodeMap_injective h
  simp [mem_activeMap, isExt_of_mem_extList hm] at hn

/-- The known bytes are the opcodes of the active map (R79). -/
theorem decodeOpcode_isSome_iff {ext : Bool} {b : Byte} :
    (decodeOpcode ext b).isSome = true ↔ b ∈ (activeMap ext).map opcodeMap := by
  simp [decodeOpcode, List.find?_isSome]

theorem nodup_activeMap (ext : Bool) : (activeMap ext).Nodup := by cases ext <;> decide

/-- All 256 bytes, in the order of their values. -/
def allBytes : List Byte := (List.range 256).map (BitVec.ofNat 8)

theorem mem_allBytes (b : Byte) : b ∈ allBytes :=
  List.mem_map.2 ⟨b.toNat, List.mem_range.2 b.isLt, by simp⟩

theorem nodup_allBytes : allBytes.Nodup := by
  refine List.Nodup.map_on (fun m hm n hn h => ?_) List.nodup_range
  have h : m % 256 = n % 256 := by simpa using congrArg BitVec.toNat h
  rwa [Nat.mod_eq_of_lt (List.mem_range.1 hm), Nat.mod_eq_of_lt (List.mem_range.1 hn)] at h

/-- The active map has one known byte for each of its rows. -/
theorem countP_known (ext : Bool) :
    (allBytes.countP fun b => (decodeOpcode ext b).isSome) = (activeMap ext).length := by
  have hnodup : ((activeMap ext).map opcodeMap).Nodup :=
    (nodup_activeMap ext).map fun _ _ => opcodeMap_injective
  have hperm : (allBytes.filter fun b => (decodeOpcode ext b).isSome).Perm ((activeMap ext).map opcodeMap) :=
    (List.perm_ext_iff_of_nodup (nodup_allBytes.filter _) hnodup).2 fun b => by
      rw [List.mem_filter, decodeOpcode_isSome_iff, and_iff_right (mem_allBytes b)]
  rw [List.countP_eq_length_filter, hperm.length_eq, List.length_map]

/-- Every other byte is unknown (R80). -/
theorem countP_unknown (ext : Bool) :
    ((List.range 256).countP fun n => (decodeOpcode ext (BitVec.ofNat 8 n)).isNone) = 256 - (activeMap ext).length := by
  have hsplit := List.length_eq_countP_add_countP (l := allBytes) fun b => (decodeOpcode ext b).isSome
  have hunknown : (allBytes.countP fun b => decide ¬(decodeOpcode ext b).isSome = true) =
      (List.range 256).countP fun n => (decodeOpcode ext (BitVec.ofNat 8 n)).isNone := by
    rw [allBytes, List.countP_map]
    exact List.countP_congr fun n _ => by simp
  have hlength : allBytes.length = 256 := by simp [allBytes]
  rw [countP_known, hunknown, hlength] at hsplit
  omega

/-- A mnemonic without operands makes one instruction of any two bytes, and it names no register (R73, R82). -/
theorem build_of_format_z {m : Mnemonic} (h : m.format = .z) (op0 op1 : Byte) :
    m.build op0 op1 = m.build 0#8 0#8 ∧ (m.build op0 op1).regOperands = [] := by
  cases m <;> cases h <;> exact ⟨rfl, rfl⟩

/-- A mnemonic with one operand makes an instruction of the first byte alone (R73, R82). -/
theorem build_of_format_r {m : Mnemonic} (h : m.format = .r) (op0 op1 : Byte) :
    m.build op0 op1 = m.build op0 0#8 ∧ (m.build op0 op1).regOperands = [op0] := by
  cases m <;> cases h <;> exact ⟨rfl, rfl⟩

end Sys2Proof

/-! SUPPORT. The step by the opcode at pc: an unknown one faults (R80), a known one runs what its row and the window's
bytes make (R79, R82). -/

namespace Sys2Proof.Machine

variable {s : State}

/-- The step at an unknown opcode (R80). -/
theorem step_eq_unknown (hr : Running s) (hw : WindowInMemory s)
    (hb : ∀ m ∈ activeMap s.extEnabled, opcodeMap m ≠ s.byteAt s.pc) :
    step s = .fault (.unknownOpcode s.pc (s.byteAt s.pc)) := by
  rw [step_running hr, fetchInstr_eq_unknown hw hb]

/-- A faulting step leaves its host the machine as it was, with the fault recorded (R254, R255). -/
theorem sessionStep_machine_of_fault {f : Fault} (started : Bool) (h : step s = .fault f) :
    (Session.step ⟨s, started⟩).machine = { s with faulted := some f } := by
  simp only [Session.step, h, State.recordFault]

/-- Settles O4: the step by the fetch of an unknown opcode, the two families of unknown bytes by the table's fields and
rows, the counts as 256 less the rows of the active map. -/
theorem unknownOpcodesFault : Obligations.UnknownOpcodesFault := by
  refine ⟨fun s started hr hw hb => ?_, fun _ _ h m _ => opcodeMap_ne_of_fieldAA_eq_three h m,
    fun _ hm _ hn => opcodeMap_ne_of_mem_extList hm hn, countP_unknown false, countP_unknown true⟩
  have hstep := step_eq_unknown hr hw hb
  exact ⟨hstep, sessionStep_machine_of_fault started hstep⟩

/-- The step at a known opcode runs the instruction its mnemonic and the two bytes after it make (R79, R104). -/
theorem step_eq_exec_build {m : Mnemonic} (hr : Running s) (hw : WindowInMemory s) (hm : m ∈ activeMap s.extEnabled)
    (hb : s.byteAt s.pc = opcodeMap m) :
    step s = exec (m.build (s.byteAt (s.pc + 1)) (s.byteAt (s.pc + 2))) s := by
  obtain ⟨i, rest, hd, n, -, hn, rfl⟩ | ⟨hne, -⟩ := decode_three (ext := s.extEnabled) (b := s.byteAt s.pc)
    (op0 := s.byteAt (s.pc + 1)) (op1 := s.byteAt (s.pc + 2))
  · obtain rfl : n = m := opcodeMap_injective (hn.trans hb)
    rw [step_running hr, fetchInstr_eq_ok hw hd]
  · exact absurd hb.symm (hne m hm)

/-- Settles O5: the step runs what the mnemonic makes of the window, and that does not depend on the unused bytes. -/
theorem unusedOperandBytesAreNotReferenced : Obligations.UnusedOperandBytesAreNotReferenced := by
  refine fun ext m hm => ⟨fun hz => ?_, fun hf op0 => ?_⟩
  · refine ⟨m.build 0#8 0#8, (build_of_format_z hz _ _).2, ?_⟩
    rintro s hr hw rfl hb
    rw [step_eq_exec_build hr hw hm hb, (build_of_format_z hz _ _).1]
  · refine ⟨m.build op0 0#8, (build_of_format_r hf _ _).2, ?_⟩
    rintro s hr hw rfl hb rfl
    rw [step_eq_exec_build hr hw hm hb, (build_of_format_r hf _ _).1]

end Sys2Proof.Machine

/-! SUPPORT. HLT (R110), and the step whose fetch window does not lie in memory (R102). -/

namespace Sys2Proof.Machine

variable {s : State}

/-- A step whose window does not lie in memory faults at the window's first address out of range (R102). -/
theorem step_eq_windowFault (hr : Running s) (hw : ¬ WindowInMemory s) :
    step s = .fault (.addressError s.pc none (.memory (max s.pc Config.memSize))) := by
  rw [step_running hr, fetchInstr, fetchWindow_eq_error hw]

theorem exec_hlt : exec .hlt s = .next { s with halted := true, pc := s.pc + 1 } := rfl

/-- HLT is in both maps and has no operand: the two bytes after it are left over (R76, R82). -/
theorem decode_hlt (ext : Bool) (b0 b1 : Byte) : decode ext [0x01#8, b0, b1] = .ok (.hlt, [b0, b1]) := by
  cases ext <;> rfl

/-- An instruction other than HLT keeps `halted` (R34). -/
theorem exec_halted_of_ne_hlt {i : Instr} {t : State} (hi : i ≠ .hlt) (h : exec i s = .next t) :
    t.halted = s.halted := by
  rw [exec_halted h, decide_eq_false hi, Bool.false_or]

/-- Settles O16: at 254 and above the window leaves memory, and the other instructions keep `halted` by the frame of
`exec`. -/
theorem hltHaltsAndAdvances : Obligations.HltHaltsAndAdvances := by
  refine ⟨rfl, fun _ => exec_hlt, decode_hlt, fun s hr hpc => ?_, fun _ _ _ => exec_halted_of_ne_hlt⟩
  have hw : ¬ WindowInMemory s := Nat.not_lt.2 (Nat.add_le_add_right hpc 2)
  exact ⟨_, step_eq_windowFault hr hw⟩

end Sys2Proof.Machine

/-! SUPPORT. The pc an instruction leaves (R107): the ALU's advance, CALL's target after SP is decremented, and the
table from them and the laws of `exec`. -/

namespace Sys2Proof.Machine

variable {s t : State}

/-- The ALU leaves pc alone and its handler takes the default advance (R150, R107). -/
theorem aluInstr_pc {m : Mnemonic} {op : AluOp} {a b : Byte} (h : aluInstr m op a b s = .next t) :
    t.pc = s.pc + instrLength m := by
  obtain ⟨u, hu, rfl⟩ := aluInstr_eq_next.1 h
  obtain ⟨-, _, _, rfl⟩ := aluApply_eq_next.1 hu
  rw [advance_pc, aluWrite_pc]

theorem extAluInstr_pc {m : Mnemonic} {op : AluOp} {a b : Byte}
    (h : requireExt m s (aluInstr m op a b s) = .next t) : t.pc = s.pc + instrLength m :=
  aluInstr_pc (requireExt_eq_next.1 h).2

/-- The register CALL reads is decremented if it is SP, and as before if not (R222, D12). -/
theorem decSp_reg_operand {r : Byte} (h : r.toNat < 8) :
    s.decSp.reg ⟨r.toNat, h⟩ = if r = 7#8 then s.reg 7 - 1#8 else s.reg (regOf r) := by
  simp only [decSp_reg, index_eq_spIndex h, regOf_of_lt h]
  rfl

/-- Settles O29: each row of the table from what its instruction leaves when it completes. -/
theorem pcFollowsTheSequencingTable : Obligations.PcFollowsTheSequencingTable := by
  intro i s t h
  cases i with
  | hlt => obtain rfl := execHlt_next.1 h; rfl
  | ldi r v => obtain ⟨_, rfl⟩ := execLdi_next.1 h; rfl
  | prn r => obtain ⟨_, rfl⟩ := execPrn_next.1 h; rfl
  | push r => obtain ⟨_, rfl⟩ := execPush_next.1 h; rfl
  | pop r => obtain ⟨_, rfl⟩ := execPop_next.1 h; rfl
  | add a b | mul a b => exact aluInstr_pc h
  | sub a b | cmp a b | and a b | or a b | xor a b | not a | shl a b | shr a b => exact extAluInstr_pc h
  | call r =>
    obtain ⟨hr, rfl⟩ := execCall_next.1 h
    rw [jump_pc, decSp_reg_operand hr, tablePc, apply_ite BitVec.toNat]
  | ret => obtain rfl := execRet_next.1 h; rfl
  | jmp r =>
    obtain ⟨-, hr, rfl⟩ := execJmp_next.1 h
    rw [jump_pc, tablePc, regOf_of_lt hr]
  | jeq r =>
    obtain ⟨-, hr, rfl⟩ := execJeq_next.1 h
    rw [tablePc, regOf_of_lt hr, apply_ite State.pc]
    rfl
  | jne r =>
    obtain ⟨-, hr, rfl⟩ := execJne_next.1 h
    simp only [tablePc, regOf_of_lt hr, ← Bool.not_eq_true, ite_not, apply_ite State.pc]
    rfl

end Sys2Proof.Machine

/-! SUPPORT. LDI and PRN (R130, R133): the state each leaves for a valid register byte, and the fault for any other. -/

namespace Sys2Proof.Machine

variable {s : State} {r : Byte}

/-- A byte written to a register is stored as it stands (R25). -/
theorem writeReg_toNat (d : RegIdx) (i : Byte) :
    s.writeReg d i.toNat = { s with x := s.x.set d.val i d.isLt } := by
  rw [State.writeReg, truncByte_toNat]

theorem exec_ldi_of_lt (i : Byte) (h : r.toNat < 8) :
    exec (.ldi r i) s = .next { s with x := s.x.set r.toNat i, pc := s.pc + 3 } := by
  rw [exec, execLdi, withReg_of_lt h, writeReg_toNat]
  rfl

theorem exec_prn_of_lt (h : r.toNat < 8) :
    exec (.prn r) s = .next { s with out := s.out ++ [s.x[r.toNat]], pc := s.pc + 2 } := by
  rw [exec, execPrn, withReg_of_lt h]
  rfl

/-- Settles O17: the immediate is stored as it stands, and a byte that names no register faults in its check. -/
theorem ldiLoadsTheImmediate : Obligations.LdiLoadsTheImmediate :=
  fun _ i => ⟨rfl, fun _ => ⟨exec_ldi_of_lt i, withReg_of_ge⟩⟩

/-- Settles O18: the register's byte is emitted, and a byte that names no register faults in its check. -/
theorem prnEmitsTheRegister : Obligations.PrnEmitsTheRegister :=
  fun _ => ⟨rfl, fun _ => ⟨exec_prn_of_lt, withReg_of_ge⟩⟩

end Sys2Proof.Machine

/-! SUPPORT. The two-register ALU instructions (R154): the state each leaves for valid indices, the fault for the first
invalid one (R153), and from them ADD and MUL (R155, R157). -/

namespace Sys2Proof.Machine

variable {s : State} {m : Mnemonic} {op : AluOp} {a b : Byte}

/-- The value the ALU computes goes to the destination register, reduced modulo 256 (R152, R154). -/
theorem aluInstr_of_lt {v : Int} (hn : op ≠ .not) (hs : aluSupports s.extEnabled op = true)
    (ha : a.toNat < 8) (hb : b.toNat < 8) (hv : aluCompute s.x[a.toNat] s.x[b.toNat] op = .value v) :
    aluInstr m op a b s =
      .next { s with x := s.x.set a.toNat (BitVec.ofInt 8 v), pc := s.pc + instrLength m } := by
  refine (aluInstr_next hn).2 ⟨hs, ha, hb, ?_⟩
  rw [reg_eq_getElem s _ ha, reg_eq_getElem s _ hb, hv, aluWrite_value]
  rfl

/-- An instruction with two register operands is three bytes long (R73). -/
theorem instrLength_of_rr (h : m.format = .rr) : instrLength m = 3 := by
  rw [instrLength_eq, h, Format.operandCount]

/-- The destination's index is checked first (R153). -/
theorem aluInstr_of_dest_ge (hs : aluSupports s.extEnabled op = true) (ha : 8 ≤ a.toNat) :
    aluInstr m op a b s = .fault (.addressError s.pc (some (opcodeMap m)) (.register a)) :=
  (aluInstr_fault_iff hs).2 ((registerFault_cons_of_ge ha).2 rfl)

/-- The source's index is checked after a valid destination (R153). -/
theorem aluInstr_of_source_ge (hn : op ≠ .not) (hs : aluSupports s.extEnabled op = true)
    (ha : a.toNat < 8) (hb : 8 ≤ b.toNat) :
    aluInstr m op a b s = .fault (.addressError s.pc (some (opcodeMap m)) (.register b)) := by
  rw [aluInstr_fault_iff hs, aluSource_of_ne hn, registerFault_cons_of_lt ha, registerFault_cons_of_ge hb]

/-- An instruction that runs the ALU, on an operation of the profile that computes `f`, follows the template (R154). -/
theorem aluTemplate_of_aluInstr {mk : Byte → Byte → Instr} {f : Nat → Nat → Int} (hn : op ≠ .not)
    (hformat : ∀ a b, (mk a b).mnemonic.format = .rr)
    (hcompute : ∀ va vb, aluCompute va vb op = .value (f va.toNat vb.toNat))
    (hexec : ∀ s a b, (mk a b).available s.extEnabled = true →
      aluSupports s.extEnabled op = true ∧ exec (mk a b) s = aluInstr (mk a b).mnemonic op a b s) :
    AluTemplate mk f := by
  intro s a b havail
  obtain ⟨hs, heq⟩ := hexec s a b havail
  rw [heq]
  refine ⟨fun ha hb => ?_, aluInstr_of_dest_ge hs, aluInstr_of_source_ge hn hs⟩
  rw [aluInstr_of_lt hn hs ha hb (hcompute _ _), instrLength_of_rr (hformat a b)]

/-- ADD follows the template with the sum (R155). -/
theorem aluTemplate_add : AluTemplate .add (fun va vb => va + vb) :=
  aluTemplate_of_aluInstr (op := .add) nofun (fun _ _ => rfl) (fun _ _ => rfl) fun _ _ _ _ => ⟨rfl, rfl⟩

/-- MUL follows the template with the unsigned product (R157). -/
theorem aluTemplate_mul : AluTemplate .mul (fun va vb => va * vb) :=
  aluTemplate_of_aluInstr (op := .mul) nofun (fun _ _ => rfl) (fun _ _ => rfl) fun _ _ _ _ => ⟨rfl, rfl⟩

/-- The unsigned and the signed product of two bytes have the same low byte, that of the bytes' own product (R157). -/
theorem ofInt_toNat_mul_toNat (va vb : Byte) :
    BitVec.ofInt 8 (va.toNat * vb.toNat) = BitVec.ofInt 8 (va.toInt * vb.toInt) :=
  calc BitVec.ofInt 8 (va.toNat * vb.toNat)
    _ = va * vb := by simp [BitVec.ofInt_mul]
    _ = BitVec.ofInt 8 (va.toInt * vb.toInt) := by simp [BitVec.ofInt_mul]

/-- Settles O19: ADD runs the ALU in both profiles, and the ALU adds. -/
theorem addIsTheSumModulo256 : Obligations.AddIsTheSumModulo256 :=
  ⟨fun _ _ => rfl, aluTemplate_add⟩

/-- Settles O20: MUL runs the ALU in both profiles, the ALU multiplies, and reduction modulo 256 forgets the sign. -/
theorem mulIsTheLowByteOfTheProduct : Obligations.MulIsTheLowByteOfTheProduct :=
  ⟨fun _ _ => rfl, aluTemplate_mul, ofInt_toNat_mul_toNat⟩

end Sys2Proof.Machine

/-! SUPPORT. RET (R225): the state it leaves for every SP, and after construction. -/

namespace Sys2Proof.Machine

/-- SP is incremented modulo 256, as a write to register 7 (R59, R23). -/
theorem incSp_eq_set (s : State) : s.incSp = { s with x := s.x.set 7 (s.x[7] + 1#8) } := by
  rw [incSp_eq, State.writeReg, truncByte_toNat_add_one]
  rfl

theorem exec_ret (s : State) :
    exec .ret s = .next { s with x := s.x.set 7 (s.x[7] + 1#8), pc := (s.byteAt s.x[7].toNat).toNat } := by
  refine execRet_next.2 ?_
  rw [incSp_eq_set]
  rfl

/-- A constructed machine's SP is 0xF4 and its memory reads 0, so a bare RET jumps to 0 with SP 0xF5. -/
theorem exec_ret_construct (ext : Bool) :
    exec .ret (State.construct ext) = .next { State.construct ext with
      x := #v[0#8, 0#8, 0#8, 0#8, 0#8, 0#8, 0#8, 0xF5#8]
      pc := 0 } := by
  rw [exec_ret]
  rfl

/-- Settles O27: the byte by the opcode table, the bare RET as the general effect at the construction values. -/
theorem retPopsThePc : Obligations.RetPopsThePc :=
  ⟨rfl, exec_ret, exec_ret_construct⟩

end Sys2Proof.Machine

/-! SUPPORT. A Faulted machine: its step and its run, and the session a faulting step leaves (R101, R111, R254). -/

namespace Sys2Proof.Machine

variable {s : State} {h : Session} {f : Fault}

/-- A recorded fault is the outcome, whatever `halted` holds (R21). -/
theorem outcome_of_faulted (hf : s.faulted = some f) : s.outcome = .faulted f := by
  simp only [State.outcome, hf]

/-- A Faulted machine reports its fault again and fetches nothing (R101). -/
theorem step_of_faulted (hf : s.faulted = some f) : step s = .fault f := by
  simp only [step, endOfRun, outcome_of_faulted hf]

theorem sessionStep_of_fault (hs : step h.machine = .fault f) : h.step = ⟨h.machine.recordFault f, true⟩ := by
  simp only [Session.step, hs]

theorem recordFault_of_faulted (hf : s.faulted = some f) : s.recordFault f = s := by
  rw [State.recordFault, ← hf]

/-- Stepping a started session whose machine is Faulted only records the same fault again. -/
theorem sessionStep_of_faulted (hstarted : h.started = true) (hf : h.machine.faulted = some f) : h.step = h := by
  rw [sessionStep_of_fault (step_of_faulted hf), recordFault_of_faulted hf, ← hstarted]

/-- A run from a machine that is not Running takes no step (R111). -/
theorem sessionRun_of_not_running (hr : h.machine.outcome ≠ .running) (n : Nat) : Session.run n h = h := by
  cases n with
  | zero => rfl
  | succ n => exact if_neg hr

/-- Settles O56: the faulting step leaves a started session whose machine is the old one with the fault recorded, and from
there neither a step nor a run changes anything. -/
theorem faultEndsTheRun : Obligations.FaultEndsTheRun := by
  rintro h f ⟨hhalted, -⟩ hstep
  rw [sessionStep_of_fault hstep]
  have hrecorded : (h.machine.recordFault f).faulted = some f := rfl
  have houtcome := outcome_of_faulted hrecorded
  have hended : (h.machine.recordFault f).outcome ≠ .running := by simp [houtcome]
  exact ⟨houtcome, hhalted, sessionStep_of_faulted rfl hrecorded, sessionRun_of_not_running hended⟩

end Sys2Proof.Machine

/-! SUPPORT. Decoding and encoding agree (R70, R72, R79): the operand bytes a row reads are those of the instruction it
makes, and from that the round trip in both directions. -/

namespace Sys2Proof

theorem build_mnemonic (m : Mnemonic) (op0 op1 : Byte) : (m.build op0 op1).mnemonic = m := by cases m <;> rfl

/-- A mnemonic makes an instruction of as many operand bytes as its format has (R73). -/
theorem build_operandBytes (m : Mnemonic) (op0 op1 : Byte) :
    (m.build op0 op1).operandBytes = [op0, op1].take m.format.operandCount := by cases m <;> rfl

/-- The operand bytes taken stand in front of the bytes left over (R72). -/
theorem takeOperands_eq_some {n : Nat} {bs after : List Byte} {op0 op1 : Byte}
    (h : takeOperands n bs = some (op0, op1, after)) : bs = [op0, op1].take n ++ after := by
  unfold takeOperands at h
  split at h
  · cases h; rfl
  · cases h; rfl
  · cases h; rfl
  · cases h

/-- From an instruction's operand bytes its mnemonic makes the instruction again (R73). -/
theorem takeOperands_operandBytes (i : Instr) (rest : List Byte) : ∃ op0 op1,
    takeOperands i.mnemonic.format.operandCount (i.operandBytes ++ rest) = some (op0, op1, rest) ∧
      i.mnemonic.build op0 op1 = i := by
  cases i <;> exact ⟨_, _, rfl, rfl⟩

/-- An instruction exists in a profile exactly when its mnemonic is in the active map (R3, R79). -/
theorem available_iff_mem_activeMap {ext : Bool} {i : Instr} :
    i.available ext = true ↔ i.mnemonic ∈ activeMap ext := (mem_activeMap ext i.mnemonic).symm

/-- The bytes of an instruction of the active map decode to it, whatever bytes follow. -/
theorem decode_encode_append {ext : Bool} {i : Instr} (rest : List Byte) (h : i.available ext = true) :
    decode ext (encode i ++ rest) = .ok (i, rest) := by
  obtain ⟨op0, op1, htake, hbuild⟩ := takeOperands_operandBytes i rest
  simp only [encode, List.cons_append, decode, decodeOpcode_opcodeMap (available_iff_mem_activeMap.1 h), htake, hbuild]

theorem decode_of_encode_eq {ext : Bool} {i : Instr} {bs : List Byte} (h : i.available ext = true)
    (hbs : encode i = bs) : decode ext bs = .ok (i, []) := by
  rw [← hbs, ← decode_encode_append [] h, List.append_nil]

/-- No other bytes decode to an instruction. -/
theorem decode_eq_ok {ext : Bool} {bs rest : List Byte} {i : Instr} (h : decode ext bs = .ok (i, rest)) :
    i.available ext = true ∧ bs = encode i ++ rest := by
  unfold decode at h
  split at h
  · cases h
  split at h
  · cases h
  next b bs d hd =>
  split at h
  · cases h
  next op0 op1 after htake =>
  cases h
  obtain ⟨hmem, rfl, hcount⟩ := decodeOpcode_eq_some hd
  rw [hcount] at htake
  rw [available_iff_mem_activeMap, encode, build_mnemonic, build_operandBytes, List.cons_append,
    ← takeOperands_eq_some htake]
  exact ⟨hmem, rfl⟩

/-- Settles O1: no other bytes decode, and an instruction's own bytes do, since its operand bytes make it again. -/
theorem decodeAnswersExactlyTheEncodedInstruction : Obligations.DecodeAnswersExactlyTheEncodedInstruction := by
  refine fun ext bs i rest => ⟨decode_eq_ok, ?_⟩
  rintro ⟨h, rfl⟩
  exact decode_encode_append rest h

/-- Settles O2: each word is the encoding of its instruction, which is in the active map. -/
theorem specWordsDecodeToTheirInstructions : Obligations.SpecWordsDecodeToTheirInstructions := by
  and_intros <;> exact decode_of_encode_eq rfl rfl

end Sys2Proof

/-! SUPPORT. What the ALU writes (R150): a value goes to the destination register, CMP's result to FL, and nothing else
changes. -/

namespace Sys2Proof.Machine

variable {s t : State} {m : Mnemonic} {op : AluOp} {a b : Byte}

/-- Every operation but CMP computes a value for its destination register (R150). -/
theorem aluCompute_of_ne_cmp (h : op ≠ .cmp) (va vb : Byte) : ∃ v, aluCompute va vb op = .value v := by
  cases op
  case cmp => exact absurd rfl h
  all_goals exact ⟨_, rfl⟩

/-- Every operation but CMP writes its destination register and nothing else. -/
theorem aluApply_writes_dest (h : aluApply m op a b s = .next t) (hop : op ≠ .cmp) :
    ∃ (ha : a.toNat < 8) (v : Int), t = s.writeReg ⟨a.toNat, ha⟩ v := by
  obtain ⟨-, ha, hb, rfl⟩ := aluApply_eq_next.1 h
  obtain ⟨v, hv⟩ := aluCompute_of_ne_cmp hop (s.reg ⟨a.toNat, ha⟩) (s.reg ⟨(aluSource a b op).toNat, hb⟩)
  exact ⟨ha, v, by rw [hv, aluWrite_value]⟩

/-- CMP writes FL and nothing else. -/
theorem aluApply_cmp_writes_fl (h : aluApply m .cmp a b s = .next t) : ∃ f, t = s.setFl f := by
  obtain ⟨-, _, _, rfl⟩ := aluApply_eq_next.1 h
  exact ⟨_, rfl⟩

/-- Settles O15: CMP writes FL alone, every other operation its destination register alone. -/
theorem aluChangesItsDestinationAlone : Obligations.AluChangesItsDestinationAlone := by
  intro m op a b s t h
  by_cases hop : op = .cmp
  · subst hop
    obtain ⟨f, rfl⟩ := aluApply_cmp_writes_fl h
    exact ⟨rfl, fun _ => rfl, fun hne => absurd rfl hne⟩
  · obtain ⟨ha, v, rfl⟩ := aluApply_writes_dest h hop
    refine ⟨rfl, fun he => absurd he hop, fun _ => ⟨rfl, fun j hj => ?_⟩⟩
    exact reg_writeReg_other s _ j v fun he => hj (congrArg Fin.val he)

/-- The handler of an operation but CMP: the destination register, then the default advance. -/
theorem aluInstr_writes_dest (h : aluInstr m op a b s = .next t) (hop : op ≠ .cmp) :
    ∃ (ha : a.toNat < 8) (v : Int), t = (s.writeReg ⟨a.toNat, ha⟩ v).advance m := by
  obtain ⟨u, hu, rfl⟩ := aluInstr_eq_next.1 h
  obtain ⟨ha, v, rfl⟩ := aluApply_writes_dest hu hop
  exact ⟨ha, v, rfl⟩

/-- The same for an EXT instruction, which runs in its own profile alone. -/
theorem extAluInstr_writes_dest (h : requireExt m s (aluInstr m op a b s) = .next t) (hop : op ≠ .cmp) :
    ∃ (ha : a.toNat < 8) (v : Int), t = (s.writeReg ⟨a.toNat, ha⟩ v).advance m :=
  aluInstr_writes_dest (requireExt_eq_next.1 h).2 hop

/-- The state CMP leaves (R164). -/
theorem execCmp_next : execCmp a b s = .next t ↔ s.extEnabled = true ∧ ∃ (ha : a.toNat < 8) (hb : b.toNat < 8),
    t = (s.setFl (cmpFlags (s.reg ⟨a.toNat, ha⟩) (s.reg ⟨b.toNat, hb⟩))).advance .cmp := extAlu_next nofun

end Sys2Proof.Machine

/-! SUPPORT. Which instruction writes which piece of state: the frame of `exec` by the writer of each field, and the
registers outside the destination. -/

namespace Sys2Proof.Machine

variable {s t : State} {i : Instr}

/-- Memory is written by the storing instructions alone, FL by CMP alone and the output by PRN alone (R56, R33, R134); the
profile and the recorded fault by none (R83, R254). -/
theorem exec_writers (h : exec i s = .next t) :
    t = { s with
      x := t.x, pc := t.pc, halted := t.halted
      mem := if (storedAt s i).isSome then t.mem else s.mem
      fl := if i.mnemonic = .cmp then t.fl else s.fl
      out := if i.mnemonic = .prn then t.out else s.out } := by
  cases i with
  | hlt => obtain rfl := execHlt_next.1 h; rfl
  | ldi r v => obtain ⟨_, rfl⟩ := execLdi_next.1 h; rfl
  | prn r => obtain ⟨_, rfl⟩ := execPrn_next.1 h; rfl
  | push r => obtain ⟨_, rfl⟩ := execPush_next.1 h; rfl
  | pop r => obtain ⟨_, rfl⟩ := execPop_next.1 h; rfl
  | call r => obtain ⟨_, rfl⟩ := execCall_next.1 h; rfl
  | ret => obtain rfl := execRet_next.1 h; rfl
  | jmp r => obtain ⟨-, _, rfl⟩ := execJmp_next.1 h; rfl
  | jeq r => obtain ⟨-, _, rfl⟩ := execJeq_next.1 h; cases s.flagE <;> rfl
  | jne r => obtain ⟨-, _, rfl⟩ := execJne_next.1 h; cases s.flagE <;> rfl
  | cmp a b => obtain ⟨-, _, _, rfl⟩ := execCmp_next.1 h; rfl
  | add a b | mul a b => obtain ⟨_, _, rfl⟩ := aluInstr_writes_dest h nofun; rfl
  | sub a b | and a b | or a b | xor a b | not a | shl a b | shr a b =>
    obtain ⟨_, _, rfl⟩ := extAluInstr_writes_dest h nofun; rfl

theorem exec_fl_of_ne_cmp (h : exec i s = .next t) (hi : i.mnemonic ≠ .cmp) : t.fl = s.fl :=
  (congrArg State.fl (exec_writers h)).trans (if_neg hi)

theorem exec_out_of_ne_prn (h : exec i s = .next t) (hi : i.mnemonic ≠ .prn) : t.out = s.out :=
  (congrArg State.out (exec_writers h)).trans (if_neg hi)

theorem exec_mem_of_storedAt_none (h : exec i s = .next t) (hi : storedAt s i = none) : t.mem = s.mem :=
  (congrArg State.mem (exec_writers h)).trans (by rw [hi]; rfl)

theorem exec_extEnabled (h : exec i s = .next t) : t.extEnabled = s.extEnabled := by rw [exec_writers h]

theorem exec_faulted (h : exec i s = .next t) : t.faulted = s.faulted := by rw [exec_writers h]

/-- The one cell an instruction stores to is the one below SP, and it stores one byte there (R56, R59). -/
theorem exec_mem_of_storedAt_some {a : Nat} (h : exec i s = .next t) (hi : storedAt s i = some a) :
    a = s.decSp.sp.toNat ∧ ∃ v, t.mem = s.mem.store a v := by
  cases i <;> cases hi
  case push => obtain ⟨_, rfl⟩ := execPush_next.1 h; exact ⟨rfl, _, rfl⟩
  case call => obtain ⟨_, rfl⟩ := execCall_next.1 h; exact ⟨rfl, _, rfl⟩

/-- CMP runs in the EXT profile alone and leaves one of its three values in FL (R164, R33). -/
theorem exec_fl_of_cmp (h : exec i s = .next t) (hi : i.mnemonic = .cmp) :
    s.extEnabled = true ∧ (t.fl = 4#8 ∨ t.fl = 2#8 ∨ t.fl = 1#8) := by
  cases i <;> cases hi
  obtain ⟨hext, _, _, rfl⟩ := execCmp_next.1 h
  refine ⟨hext, ?_⟩
  rw [advance_fl, setFl_fl, cmpFlags_eq]
  split_ifs <;> simp

/-- A write to the register an operand byte names keeps every other register. -/
theorem reg_writeReg_operand {r : Byte} {j : RegIdx} {v : Int} (hr : r.toNat < 8) (hj : j ≠ regOf r) :
    (s.writeReg ⟨r.toNat, hr⟩ v).reg j = s.reg j := by
  rw [regOf_of_lt hr] at hj
  exact reg_writeReg_other s _ j v hj

theorem decSp_reg_of_ne {j : RegIdx} (hj : j ≠ Config.spIndex) : s.decSp.reg j = s.reg j := by
  rw [decSp_reg, if_neg hj]

theorem incSp_reg_of_ne {j : RegIdx} (hj : j ≠ Config.spIndex) : s.incSp.reg j = s.reg j := by
  rw [incSp_reg, if_neg hj]

/-- The register frame of every instruction (R150, R200, R203, R222, R225). -/
theorem exec_reg_of_not_mem_destRegs {j : RegIdx} (h : exec i s = .next t) (hj : j ∉ destRegs i) : t.reg j = s.reg j := by
  cases i with
  | hlt => obtain rfl := execHlt_next.1 h; rfl
  | prn r => obtain ⟨_, rfl⟩ := execPrn_next.1 h; rfl
  | cmp a b => obtain ⟨-, _, _, rfl⟩ := execCmp_next.1 h; rfl
  | jmp r => obtain ⟨-, _, rfl⟩ := execJmp_next.1 h; rfl
  | jeq r => obtain ⟨-, _, rfl⟩ := execJeq_next.1 h; cases s.flagE <;> rfl
  | jne r => obtain ⟨-, _, rfl⟩ := execJne_next.1 h; cases s.flagE <;> rfl
  | ldi r v =>
    obtain ⟨hr, rfl⟩ := execLdi_next.1 h
    exact reg_writeReg_operand hr (List.ne_of_not_mem_cons hj)
  | add a b | mul a b =>
    obtain ⟨ha, v, rfl⟩ := aluInstr_writes_dest h nofun
    exact reg_writeReg_operand ha (List.ne_of_not_mem_cons hj)
  | sub a b | and a b | or a b | xor a b | not a | shl a b | shr a b =>
    obtain ⟨ha, v, rfl⟩ := extAluInstr_writes_dest h nofun
    exact reg_writeReg_operand ha (List.ne_of_not_mem_cons hj)
  | push r => obtain ⟨_, rfl⟩ := execPush_next.1 h; exact decSp_reg_of_ne (List.ne_of_not_mem_cons hj)
  | call r => obtain ⟨_, rfl⟩ := execCall_next.1 h; exact decSp_reg_of_ne (List.ne_of_not_mem_cons hj)
  | ret => obtain rfl := execRet_next.1 h; exact incSp_reg_of_ne (List.ne_of_not_mem_cons hj)
  | pop r =>
    obtain ⟨hr, rfl⟩ := execPop_next.1 h
    have hsp : j ≠ Config.spIndex := List.ne_of_not_mem_cons (List.not_mem_of_not_mem_cons hj)
    rw [advance_reg, incSp_reg_of_ne hsp, reg_writeReg_operand hr (List.ne_of_not_mem_cons hj)]

/-- Settles O32: the frame for the other instructions, the three values of the comparison for CMP. -/
theorem flIsWrittenByCmpAlone : Obligations.FlIsWrittenByCmpAlone :=
  fun _ _ _ h => ⟨exec_fl_of_ne_cmp h, fun hi => (exec_fl_of_cmp h hi).2⟩

/-- Settles O33: PRN's own effect, and the frame for the other instructions. -/
theorem outIsWrittenByPrnAlone : Obligations.OutIsWrittenByPrnAlone := by
  refine fun i s t h => ⟨?_, exec_out_of_ne_prn h⟩
  rintro r rfl
  obtain ⟨hr, rfl⟩ := execPrn_next.1 h
  rw [advance_out, emit_out, regOf_of_lt hr]

/-- Settles O34: the register frame, instruction by instruction. -/
theorem registersOutsideTheDestinationAreKept : Obligations.RegistersOutsideTheDestinationAreKept :=
  fun _ _ _ h _ => exec_reg_of_not_mem_destRegs h

/-- Every instruction but PUSH and CALL stores nothing (R56). -/
theorem storedAt_eq_none (h₁ : i.mnemonic ≠ .push) (h₂ : i.mnemonic ≠ .call) : storedAt s i = none := by
  cases i
  case push => exact absurd rfl h₁
  case call => exact absurd rfl h₂
  all_goals rfl

/-- Settles O35: what stores nothing leaves memory as it is. -/
theorem nonStoringInstructionsKeepMemory : Obligations.NonStoringInstructionsKeepMemory := by
  intro i s t h₁ h₂ h a
  rw [State.byteAt, State.byteAt, exec_mem_of_storedAt_none h (storedAt_eq_none h₁ h₂)]

/-- Settles O36: memory after the instruction is memory with one byte stored. -/
theorem storingInstructionsWriteOneByte : Obligations.StoringInstructionsWriteOneByte := by
  intro i s t _ h a ha b hb
  obtain ⟨-, v, hv⟩ := exec_mem_of_storedAt_some h ha
  rw [State.byteAt, State.byteAt, hv, load_store_other s.mem v hb]

/-- Settles O37: by the frame of `exec`. -/
theorem profileAndFaultRecordAreKept : Obligations.ProfileAndFaultRecordAreKept :=
  fun _ _ _ h => ⟨exec_extEnabled h, exec_faulted h⟩

/-- A row of the table whose opcode has C = 0 is the default advance by the encoded length (R107, R84). -/
theorem tablePc_of_fieldC_false (h : fieldC (opcodeMap i.mnemonic) = false) : tablePc s i = s.pc + (encode i).length := by
  have hc := mt (fieldC_opcodeMap i.mnemonic).2 (Bool.eq_false_iff.1 h)
  cases i
  case call | ret | jmp | jeq | jne => exact absurd (by simp [Instr.mnemonic]) hc
  all_goals rfl

/-- Settles O30: pc follows the table, whose rows with C = 0 are the default advance. -/
theorem defaultAdvanceUnlessCIsSet : Obligations.DefaultAdvanceUnlessCIsSet :=
  fun i s t h hc => (pcFollowsTheSequencingTable i s t h).trans (tablePc_of_fieldC_false hc)

end Sys2Proof.Machine

/-! SUPPORT. The state invariant: what each clause of it needs of an instruction, the step that keeps it, construction and
loading that meet it, and every run (R30, R33, R36, R280, R282). -/

namespace Sys2Proof.Machine

variable {s t : State} {i : Instr}

/-- An instruction leaves memory in canonical form (R36). -/
theorem exec_keeps_mem_wf (h : exec i s = .next t) (hwf : s.mem.wf) : t.mem.wf := by
  cases hst : storedAt s i with
  | none => rwa [exec_mem_of_storedAt_none h hst]
  | some a =>
    obtain ⟨rfl, v, hv⟩ := exec_mem_of_storedAt_some h hst
    rw [hv]
    exact wf_store v hwf (byte_lt_memSize _)

/-- With the fetch window in memory an instruction leaves pc in range: a byte, or an advance by at most 3 (R30, R107). -/
theorem tablePc_le_memSize (i : Instr) (hw : WindowInMemory s) : tablePc s i ≤ Config.memSize := by
  have hbyte : ∀ b : Byte, b.toNat ≤ Config.memSize := fun b => (byte_lt_memSize b).le
  cases i with
  | ldi | add | mul | sub | cmp | and | or | xor | shl | shr => exact hw
  | prn | not | push | pop => exact hw.le
  | hlt => exact (Nat.le_succ _).trans hw.le
  | ret | jmp => exact hbyte _
  | call => simp only [tablePc]; split <;> exact hbyte _
  | jeq | jne =>
    simp only [tablePc]
    split
    · exact hbyte _
    · exact hw.le

/-- An instruction leaves FL at a legal value: CMP writes one, the others keep it (R33). -/
theorem exec_keeps_fl_legal (h : exec i s = .next t) (hs : s.fl = 0#8 ∨ s.fl = 1#8 ∨ s.fl = 2#8 ∨ s.fl = 4#8) :
    t.fl = 0#8 ∨ t.fl = 1#8 ∨ t.fl = 2#8 ∨ t.fl = 4#8 := by
  by_cases hi : i.mnemonic = .cmp
  · obtain ⟨-, hfl | hfl | hfl⟩ := exec_fl_of_cmp h hi <;> simp [hfl]
  · rwa [exec_fl_of_ne_cmp h hi]

/-- In the base profile no instruction writes FL (R32). -/
theorem exec_fl_of_base (h : exec i s = .next t) (hb : s.extEnabled = false) : t.fl = s.fl := by
  refine exec_fl_of_ne_cmp h fun hi => ?_
  rw [(exec_fl_of_cmp h hi).1] at hb
  cases hb

/-- An instruction that a Running machine fetched keeps the invariant. -/
theorem exec_keeps_stateInv (hinv : StateInv s) (hr : Running s) (hw : WindowInMemory s) (h : exec i s = .next t) :
    StateInv t where
  memCanonical := exec_keeps_mem_wf h hinv.memCanonical
  pcInRange := by
    rw [pcFollowsTheSequencingTable i s t h]
    exact (tablePc_le_memSize i hw).trans (le_max_left _ _)
  flLegal := exec_keeps_fl_legal h hinv.flLegal
  flAbsentInBase := by
    intro hb
    rw [exec_extEnabled h] at hb
    rw [exec_fl_of_base h hb, hinv.flAbsentInBase hb]
  haltedNotFaulted := by
    intro _
    rw [exec_faulted h, hr.2]

/-- Settles O50: a Halted machine stays as it is, a Running one runs an instruction from a window in memory. -/
theorem stepKeepsTheStateInvariant : Obligations.StepKeepsTheStateInvariant := by
  intro s t hinv h
  obtain ⟨-, -, rfl⟩ | ⟨hr, hw, _, _, -, hexec⟩ := step_next_cases h
  · exact hinv
  · exact exec_keeps_stateInv hinv hr hw hexec

theorem stateInv_construct (ext : Bool) (sp : Byte) : StateInv (State.construct ext sp) where
  memCanonical := wf_nil
  pcInRange := Nat.zero_le _
  flLegal := .inl rfl
  flAbsentInBase _ := rfl
  haltedNotFaulted h := nomatch h

theorem running_construct (ext : Bool) (sp : Byte) : Running (State.construct ext sp) := ⟨rfl, rfl⟩

/-- Settles O51: the reset state is one of the constructed machines. -/
theorem constructionMeetsTheInvariant : Obligations.ConstructionMeetsTheInvariant :=
  ⟨fun ext sp => ⟨stateInv_construct ext sp, running_construct ext sp⟩, stateInv_construct _ _, running_construct _ _⟩

/-- SP holds the parameter and every other register 0 (R28). -/
theorem reg_construct (ext : Bool) (sp : Byte) (i : RegIdx) :
    (State.construct ext sp).reg i = if i = 7 then sp else 0#8 := by
  fin_cases i <;> rfl

/-- Settles O52: the registers one by one, the other pieces by their values. -/
theorem constructionValuesAreTheSpecs : Obligations.ConstructionValuesAreTheSpecs :=
  ⟨fun ext sp => ⟨reg_construct ext sp, rfl, rfl, fun _ => rfl, rfl, rfl, rfl, rfl⟩, rfl, rfl⟩

/-- A load that is not turned away fits in memory and writes memory alone (R282). -/
theorem loadBytes_eq_ok {program : List Byte} (h : s.loadBytes program = .ok t) :
    program.length ≤ Config.memSize ∧ t = { s with mem := Memory.storeList s.mem 0 program } := by
  unfold State.loadBytes at h
  split at h
  next hlen => cases h; exact ⟨hlen, rfl⟩
  next => cases h

/-- Loading keeps the invariant. -/
theorem loadBytes_keeps_stateInv {program : List Byte} (hinv : StateInv s) (h : s.loadBytes program = .ok t) :
    StateInv t := by
  obtain ⟨hlen, rfl⟩ := loadBytes_eq_ok h
  exact { hinv with memCanonical := wf_storeList 0 program hinv.memCanonical (by rwa [Nat.zero_add]) }

/-- What every step keeps holds at the end of every completed run. -/
theorem run_keeps {P : State → Prop} (hstep : ∀ s t, P s → step s = .next t → P t) {n : Nat}
    (hs : P s) (h : Host.Core.run Sys2Proof.core n s = .next t) : P t :=
  run_induction (P := fun s t => P s → P t) (fun _ => id) (fun s u _ hu ih hs => ih (hstep s u hs hu)) n s t h hs

/-- Settles O53: construction meets the invariant, loading and every step keep it. -/
theorem everyLoadedRunKeepsTheInvariant : Obligations.EveryLoadedRunKeepsTheInvariant := by
  intro ext sp program s t n hload hrun
  exact run_keeps stepKeepsTheStateInvariant (loadBytes_keeps_stateInv (stateInv_construct ext sp) hload) hrun

end Sys2Proof.Machine

/-! SUPPORT. The output only grows (R136): along an instruction, a step, and both kinds of run. -/

namespace Sys2Proof.Machine

variable {s t : State}

theorem exec_out_prefix {i : Instr} (h : exec i s = .next t) : s.out <+: t.out := by
  obtain ⟨hprn, hkept⟩ := outIsWrittenByPrnAlone i s t h
  by_cases hi : i.mnemonic = .prn
  · cases i <;> cases hi
    rw [hprn _ rfl]
    exact List.prefix_append _ _
  · rw [hkept hi]

theorem step_out_prefix (h : step s = .next t) : s.out <+: t.out := by
  obtain ⟨-, -, rfl⟩ | ⟨-, -, _, _, -, hexec⟩ := step_next_cases h
  · exact List.prefix_refl _
  · exact exec_out_prefix hexec

/-- A host's step keeps the output where the machine faults (R255). -/
theorem sessionStep_out_prefix (h : Session) : h.machine.out <+: h.step.machine.out := by
  unfold Session.step
  cases hs : step h.machine with
  | next t => exact step_out_prefix hs
  | fault f => exact List.prefix_refl _
  | refused r => exact List.prefix_refl _

theorem sessionRun_out_prefix (n : Nat) (h : Session) : h.machine.out <+: (Session.run n h).machine.out := by
  induction n generalizing h with
  | zero => exact List.prefix_refl _
  | succ n ih =>
    rw [Session.run]
    split
    · exact (sessionStep_out_prefix h).trans (ih h.step)
    · exact List.prefix_refl _

theorem run_out_prefix {n : Nat} (h : Host.Core.run Sys2Proof.core n s = .next t) : s.out <+: t.out :=
  run_induction (P := fun s t => s.out <+: t.out) (fun _ => List.prefix_refl _)
    (fun _ _ _ hu ih => (step_out_prefix hu).trans ih) n s t h

/-- Settles O54: each step extends the output, so each run does. -/
theorem outputGrowsAlongEveryRun : Obligations.OutputGrowsAlongEveryRun := by
  refine ⟨fun n h => ?_, fun n s t h => ?_⟩
  · obtain ⟨o, ho⟩ := sessionRun_out_prefix n h
    exact ⟨o, ho.symm⟩
  · obtain ⟨o, ho⟩ := run_out_prefix h
    exact ⟨o, ho.symm⟩

end Sys2Proof.Machine

/-! SUPPORT. An instruction completes or faults: none is refused, and it faults exactly when it is not well formed (R26,
R80, R263). -/

namespace Sys2Proof.Machine

variable {s : State} {i : Instr} {m : Mnemonic} {q : Refusal}

theorem withReg_ne_refused {r : Byte} {k : RegIdx → Result} (hk : ∀ d, k d ≠ .refused q) :
    withReg m r s k ≠ .refused q := by
  by_cases h : r.toNat < 8
  · rw [withReg_of_lt h]; exact hk _
  · rw [withReg_of_ge (Nat.le_of_not_lt h)]; nofun

theorem requireExt_ne_refused {k : Result} (hk : k ≠ .refused q) : requireExt m s k ≠ .refused q := by
  cases h : s.extEnabled
  · rw [requireExt_of_false h]; nofun
  · rwa [requireExt_of_true h]

theorem aluInstr_ne_refused {op : AluOp} {a b : Byte} : aluInstr m op a b s ≠ .refused q := by
  have happly : ∀ q, aluApply m op a b s ≠ .refused q := by
    intro q
    unfold aluApply
    split
    · exact withReg_ne_refused fun _ => withReg_ne_refused fun _ => nofun
    · nofun
  unfold aluInstr
  cases h : aluApply m op a b s with
  | next u => nofun
  | fault f => nofun
  | refused r => exact absurd h (happly r)

/-- Every instruction has a meaning. -/
theorem exec_ne_refused : exec i s ≠ .refused q := by
  cases i with
  | hlt => nofun
  | ret => rw [exec, execRet, withPop_eq]; nofun
  | ldi | prn => exact withReg_ne_refused fun _ => nofun
  | push | call => exact withReg_ne_refused fun _ => by rw [withPush_eq]; nofun
  | pop => exact withReg_ne_refused fun _ => by rw [withPop_eq]; nofun
  | add | mul => exact aluInstr_ne_refused
  | sub | cmp | and | or | xor | not | shl | shr => exact requireExt_ne_refused aluInstr_ne_refused
  | jmp | jeq | jne => exact requireExt_ne_refused (withReg_ne_refused fun _ => nofun)

/-- The register bytes are valid exactly when none of them is found to be 8 or more (R26). -/
theorem regsValid_iff_find?_eq_none :
    i.regsValid = true ↔ (i.regOperands.find? fun k => decide (8 ≤ k.toNat)) = none := by
  simp [Instr.regsValid, validReg]

/-- The conditions of a fault are the failures of well-formedness. -/
theorem wellFormed_eq_false_iff : i.wellFormed s.extEnabled = false ↔ ∃ f, RaisesFault i s f := by
  rw [Instr.wellFormed, Bool.and_eq_false_iff]
  constructor
  · rintro (hav | hregs)
    · exact ⟨_, .inl ⟨hav, rfl⟩⟩
    · cases hav : i.available s.extEnabled with
      | false => exact ⟨_, .inl ⟨hav, rfl⟩⟩
      | true =>
        rw [← Bool.not_eq_true, regsValid_iff_find?_eq_none] at hregs
        obtain ⟨r, hr⟩ := Option.ne_none_iff_exists'.1 hregs
        exact ⟨_, .inr ⟨hav, r, hr, rfl⟩⟩
  · rintro ⟨f, ⟨hav, -⟩ | ⟨-, r, hr, -⟩⟩
    · exact .inl hav
    · refine .inr ?_
      rw [← Bool.not_eq_true, regsValid_iff_find?_eq_none, hr]
      nofun

theorem exec_faults_iff : (∃ f, exec i s = .fault f) ↔ i.wellFormed s.extEnabled = false := by
  simp only [exec_eq_fault, wellFormed_eq_false_iff]

theorem exec_completes_iff_not_faults : (∃ t, exec i s = .next t) ↔ ¬ ∃ f, exec i s = .fault f := by
  cases h : exec i s with
  | next t => simp
  | fault f => simp
  | refused q => exact absurd h exec_ne_refused

/-- Settles O10: the faults are the failures of well-formedness, and what does not fault completes. -/
theorem exactlyWellFormedInstructionsComplete : Obligations.ExactlyWellFormedInstructionsComplete := by
  refine fun i s => ⟨?_, exec_faults_iff.symm⟩
  rw [exec_completes_iff_not_faults, exec_faults_iff, Bool.not_eq_false]

theorem regIndex_isSome_iff (r : Byte) : (regIndex r).isSome = true ↔ r.toNat < 8 := by
  by_cases h : r.toNat < 8
  · simp [regIndex_of_lt h, h]
  · simp [regIndex_of_ge (Nat.le_of_not_lt h), h]

/-- Settles O11: by the law of the faults of `exec`. -/
theorem invalidRegisterIndexFaults : Obligations.InvalidRegisterIndexFaults :=
  ⟨regIndex_isSome_iff, fun _ _ r hav hr => exec_eq_fault.2 (.inr ⟨hav, r, hr, rfl⟩)⟩

/-- Settles O12: an EXT instruction is not available in the base profile. -/
theorem baseProfileHasNoExtInstruction : Obligations.BaseProfileHasNoExtInstruction :=
  fun _ _ hb he => exec_eq_fault.2 (.inl ⟨by rw [Instr.available, hb, he]; rfl, rfl⟩)

/-- No instruction hands the ALU a tag outside its profile (R151, R253). -/
theorem exec_ne_unsupportedOperation {pc : Nat} {b : Option Byte} {op : AluOp} :
    exec i s ≠ .fault (.unsupportedOperation pc b op) := by
  rw [Ne, exec_eq_fault]
  rintro (⟨-, h⟩ | ⟨-, r, -, h⟩)
  · cases h
  · cases h

/-- The base profile's ALU implements ADD and MUL alone (R151). -/
theorem aluSupports_base {op : AluOp} (hadd : op ≠ .add) (hmul : op ≠ .mul) : aluSupports false op = false := by
  cases op
  case add => exact absurd rfl hadd
  case mul => exact absurd rfl hmul
  all_goals rfl

/-- Settles O14: the tag is tested before the indices. -/
theorem aluRejectsTagsOutsideItsProfile : Obligations.AluRejectsTagsOutsideItsProfile := by
  intro m op a b s hb hadd hmul
  simp [aluApply, hb, aluSupports_base hadd hmul]

end Sys2Proof.Machine

/-! SUPPORT. The faults of a step in the order of R258: the window, the opcode, the register operands; and the record of
each (R252). -/

namespace Sys2Proof.Machine

variable {s : State} {f : Fault}

/-- The three ways a step's fetch can go (R102, R80, R79). -/
theorem fetch_cases (s : State) :
    ¬ WindowInMemory s ∨
    (WindowInMemory s ∧ ∀ m ∈ activeMap s.extEnabled, opcodeMap m ≠ s.byteAt s.pc) ∨
    (WindowInMemory s ∧ ∃ m ∈ activeMap s.extEnabled, s.byteAt s.pc = opcodeMap m) := by
  by_cases hw : WindowInMemory s
  · refine .inr ?_
    by_cases hm : ∃ m ∈ activeMap s.extEnabled, s.byteAt s.pc = opcodeMap m
    · exact .inr ⟨hw, hm⟩
    · exact .inl ⟨hw, fun m hmem he => hm ⟨m, hmem, he.symm⟩⟩
  · exact .inl hw

/-- The first address of the window outside memory, where there is one (R102). -/
theorem window_find?_of_not_window (hw : ¬ WindowInMemory s) :
    ([s.pc, s.pc + 1, s.pc + 2].find? fun a => decide (Config.memSize ≤ a)) = some (max s.pc Config.memSize) := by
  have hlast : Config.memSize ≤ s.pc + 2 := Nat.le_of_not_lt hw
  by_cases h0 : Config.memSize ≤ s.pc
  · simp [h0]
  · by_cases h1 : Config.memSize ≤ s.pc + 1
    · have he : max s.pc Config.memSize = s.pc + 1 := by omega
      simp [h0, h1, he]
    · have he : max s.pc Config.memSize = s.pc + 2 := by omega
      simp [h0, h1, hlast, he]

theorem window_find?_of_window (hw : WindowInMemory s) :
    ([s.pc, s.pc + 1, s.pc + 2].find? fun a => decide (Config.memSize ≤ a)) = none := by
  simp only [List.find?_eq_none, List.mem_cons, List.not_mem_nil, or_false, decide_eq_true_eq]
  rintro a (rfl | rfl | rfl) <;> omega

/-- The first fault where the window leaves memory is its first address outside (R102). -/
theorem firstFault_of_not_window (hw : ¬ WindowInMemory s) :
    firstFault s = some (.addressError s.pc none (.memory (max s.pc Config.memSize))) := by
  rw [firstFault, window_find?_of_not_window hw]

/-- The first fault where the window lies in memory but its opcode is unknown (R80). -/
theorem firstFault_of_unknown (hw : WindowInMemory s)
    (hb : ∀ m ∈ activeMap s.extEnabled, opcodeMap m ≠ s.byteAt s.pc) :
    firstFault s = some (.unknownOpcode s.pc (s.byteAt s.pc)) := by
  have hfind : ((activeMap s.extEnabled).find? fun m => opcodeMap m == s.byteAt s.pc) = none := by simpa using hb
  simp only [firstFault, window_find?_of_window hw, hfind]

/-- The first fault at a known opcode is that of its register operands (R258). -/
theorem firstFault_of_known {m : Mnemonic} (hw : WindowInMemory s) (hm : m ∈ activeMap s.extEnabled)
    (hb : s.byteAt s.pc = opcodeMap m) :
    firstFault s = some f ↔
      RegisterFault m s (m.build (s.byteAt (s.pc + 1)) (s.byteAt (s.pc + 2))).regOperands f := by
  have hfind := find_activeMap.2 ⟨hm, rfl⟩
  simp only [firstFault, window_find?_of_window hw, hb, hfind, RegisterFault]
  split
  next r hr => simp [hr, eq_comm]
  next hr => simp [hr]

/-- A Running machine's step faults exactly with its first fault in the order of R258. -/
theorem step_eq_fault_iff (hr : Running s) : step s = .fault f ↔ firstFault s = some f := by
  obtain hw | ⟨hw, hb⟩ | ⟨hw, m, hm, hb⟩ := fetch_cases s
  · rw [step_eq_windowFault hr hw, firstFault_of_not_window hw, Host.Outcome.fault.injEq, Option.some.injEq]
  · rw [step_eq_unknown hr hw hb, firstFault_of_unknown hw hb, Host.Outcome.fault.injEq, Option.some.injEq]
  · have hav : (m.build (s.byteAt (s.pc + 1)) (s.byteAt (s.pc + 2))).available s.extEnabled = true := by
      rwa [available_iff_mem_activeMap, build_mnemonic]
    rw [step_eq_exec_build hr hw hm hb, firstFault_of_known hw hm hb, exec_eq_fault, RaisesFault, hav, build_mnemonic]
    simp

/-- No step is refused. -/
theorem step_ne_refused {q : Refusal} (hr : Running s) : step s ≠ .refused q := by
  rw [step_running hr]
  cases fetchInstr s with
  | error f => nofun
  | ok i => exact exec_ne_refused

/-- Settles O9: the step faults with the first fault, and what neither faults nor is refused completes. -/
theorem stepReportsTheFirstFaultOrCompletes : Obligations.StepReportsTheFirstFaultOrCompletes := by
  refine fun s hr => ⟨fun f => step_eq_fault_iff hr, fun hnone => ?_⟩
  cases h : step s with
  | next t => exact ⟨t, rfl⟩
  | fault f => rw [step_eq_fault_iff hr, hnone] at h; cases h
  | refused q => exact absurd h (step_ne_refused hr)

/-- What a fault of a Running machine can be: the window's, the opcode's, or that of a register operand (R102, R80, R26). -/
theorem step_fault_cases (hr : Running s) (h : step s = .fault f) :
    (¬ WindowInMemory s ∧ f = .addressError s.pc none (.memory (max s.pc Config.memSize))) ∨
    (WindowInMemory s ∧ f = .unknownOpcode s.pc (s.byteAt s.pc)) ∨
    (WindowInMemory s ∧ ∃ r, f = .addressError s.pc (some (s.byteAt s.pc)) (.register r)) := by
  rw [step_eq_fault_iff hr] at h
  obtain hw | ⟨hw, hb⟩ | ⟨hw, m, hm, hb⟩ := fetch_cases s
  · rw [firstFault_of_not_window hw] at h
    exact .inl ⟨hw, (Option.some.inj h).symm⟩
  · rw [firstFault_of_unknown hw hb] at h
    exact .inr (.inl ⟨hw, (Option.some.inj h).symm⟩)
  · obtain ⟨r, -, hf⟩ := (firstFault_of_known hw hm hb).1 h
    exact .inr (.inr ⟨hw, r, by rw [hf, hb]⟩)

/-- A Halted machine's step answers the same machine (R101, log 3). -/
theorem step_eq_self_of_halted (hh : s.halted = true) (hf : s.faulted = none) : step s = .next s := by
  simp [step, endOfRun, State.outcome, hh, hf]

/-- Settles O8: each clause is its end of the run. -/
theorem endedMachineStaysAsItIs : Obligations.EndedMachineStaysAsItIs :=
  ⟨fun _ => step_eq_self_of_halted, fun _ _ => step_of_faulted⟩

/-- Settles O13: a step raises what its fetch or an instruction raises. -/
theorem noInstructionRaisesUnsupportedOperation : Obligations.NoInstructionRaisesUnsupportedOperation := by
  refine fun s pc b op => ⟨fun _ => exec_ne_unsupportedOperation, fun hf h => ?_⟩
  cases hh : s.halted with
  | true => rw [step_eq_self_of_halted hh hf] at h; cases h
  | false =>
    obtain ⟨-, h⟩ | ⟨-, h⟩ | ⟨-, r, h⟩ := step_fault_cases ⟨hh, hf⟩ h
    · cases h
    · cases h
    · cases h

/-- Settles O57: the record is read off each of the three kinds of fault a step can raise. -/
theorem faultsArePreciseAndRecorded : Obligations.FaultsArePreciseAndRecorded := by
  rintro ⟨s, started⟩ f hr h
  refine ⟨sessionStep_machine_of_fault started h, ?_⟩
  obtain ⟨hw, rfl⟩ | ⟨hw, rfl⟩ | ⟨hw, r, rfl⟩ := step_fault_cases hr h
  · exact ⟨rfl, (if_neg hw).symm⟩
  · exact ⟨rfl, (if_pos hw).symm⟩
  · exact ⟨rfl, (if_pos hw).symm⟩

/-- Settles O6: the fetch of a Running machine answers what its window decodes to. -/
theorem stepRunsTheDecodedInstruction : Obligations.StepRunsTheDecodedInstruction := by
  intro s i rest hr hw hd
  rw [step_running hr, fetchInstr_eq_ok hw hd]

/-- Settles O7: the first address outside memory is 256, or pc where pc itself is outside. -/
theorem fetchWindowFaultsAtTheTopOfMemory : Obligations.FetchWindowFaultsAtTheTopOfMemory := by
  intro s hr hpc
  have hw : ¬ WindowInMemory s := Nat.not_lt.2 (Nat.add_le_add_right hpc 2)
  have hfirst : max s.pc Config.memSize = if s.pc < 256 then 256 else s.pc := by
    rw [Config.memSize]
    split <;> omega
  rw [step_eq_windowFault hr hw, hfirst]

end Sys2Proof.Machine

/-! SUPPORT. The EXT ALU instructions (R160 to R179): the template for the six that compute a value, CMP and NOT. -/

namespace Sys2Proof.Machine

variable {s : State} {a b : Byte}

/-- An EXT instruction that runs the ALU, on an operation that computes `f`, follows the template (R154). What the
tables say of the instruction is checked by evaluating them. -/
theorem aluTemplate_of_extAluInstr {mk : Byte → Byte → Instr} {f : Nat → Nat → Int} (op : AluOp) (hn : op ≠ .not)
    (hcompute : ∀ va vb, aluCompute va vb op = .value (f va.toNat vb.toNat))
    (hformat : ∀ a b, (mk a b).mnemonic.format = .rr := by intros; rfl)
    (hisExt : ∀ a b, (mk a b).mnemonic.isExt = true := by intros; rfl)
    (hexec : ∀ s a b, exec (mk a b) s = requireExt (mk a b).mnemonic s (aluInstr (mk a b).mnemonic op a b s) := by
      intros; rfl) :
    AluTemplate mk f := by
  refine aluTemplate_of_aluInstr hn hformat hcompute fun s a b hav => ?_
  have hext : s.extEnabled = true := by simpa [Instr.available, hisExt] using hav
  exact ⟨aluSupports_of_ext op hext, by rw [hexec, requireExt_of_true hext]⟩

/-- A shift left by `k` multiplies by `2 ^ k` (R176, D19). -/
theorem aluCompute_shl (va vb : Byte) : aluCompute va vb .shl = .value (va.toNat * 2 ^ vb.toNat : Nat) := by
  rw [aluCompute, Nat.shiftLeft_eq]

/-- A shift right by `k` divides by `2 ^ k` (R179, D19). -/
theorem aluCompute_shr (va vb : Byte) : aluCompute va vb .shr = .value (va.toNat / 2 ^ vb.toNat : Nat) := by
  rw [aluCompute, Nat.shiftRight_eq_div_pow]

/-- Settles O21: each follows the template with the function its operation computes. -/
theorem extAluInstructionsComputeTheirFunctions : Obligations.ExtAluInstructionsComputeTheirFunctions :=
  ⟨aluTemplate_of_extAluInstr .sub nofun fun _ _ => rfl, aluTemplate_of_extAluInstr .and nofun fun _ _ => rfl,
    aluTemplate_of_extAluInstr .or nofun fun _ _ => rfl, aluTemplate_of_extAluInstr .xor nofun fun _ _ => rfl,
    aluTemplate_of_extAluInstr .shl nofun aluCompute_shl, aluTemplate_of_extAluInstr .shr nofun aluCompute_shr⟩

/-- An instruction of the profile faults for the first of its register bytes that names no register. -/
theorem exec_of_registerFault {i : Instr} {f : Fault} (hav : i.available s.extEnabled = true)
    (h : RegisterFault i.mnemonic s i.regOperands f) : exec i s = .fault f :=
  exec_eq_fault.2 (.inr ⟨hav, h⟩)

theorem exec_cmp_of_lt (hext : s.extEnabled = true) (ha : a.toNat < 8) (hb : b.toNat < 8) :
    exec (.cmp a b) s = .next { s with
      fl := if s.x[a.toNat].toNat < s.x[b.toNat].toNat then 0b100#8
            else if s.x[b.toNat].toNat < s.x[a.toNat].toNat then 0b010#8 else 0b001#8
      pc := s.pc + 3 } := by
  refine execCmp_next.2 ⟨hext, ha, hb, ?_⟩
  rw [cmpFlags_eq]
  rfl

/-- Settles O22: the comparison for valid indices, and the first invalid one otherwise. -/
theorem cmpSetsOneFlag : Obligations.CmpSetsOneFlag := by
  intro s a b hext
  have hav : (Instr.cmp a b).available s.extEnabled = true := by rw [hext]; rfl
  refine ⟨exec_cmp_of_lt hext, fun ha => ?_, fun ha hb => ?_⟩
  · exact exec_of_registerFault hav ((registerFault_cons_of_ge ha).2 rfl)
  · exact exec_of_registerFault hav ((registerFault_cons_of_lt ha).2 ((registerFault_cons_of_ge hb).2 rfl))

/-- The complement of a byte is in range, so the write does not reduce it (R173, R25). -/
theorem truncByte_255_sub (v : Byte) : truncByte (255 - v.toNat : Int) = BitVec.ofNat 8 (255 - v.toNat) := by
  have hv := v.isLt
  have hcast : (255 - v.toNat : Int) = ((255 - v.toNat : Nat) : Int) := by omega
  rw [hcast, truncByte_natCast]

theorem writeReg_complement (d : RegIdx) (v : Byte) :
    s.writeReg d (255 - v.toNat : Int) = { s with x := s.x.set d.val (BitVec.ofNat 8 (255 - v.toNat)) d.isLt } := by
  rw [State.writeReg, truncByte_255_sub]

theorem exec_not_of_lt (hext : s.extEnabled = true) (ha : a.toNat < 8) :
    exec (.not a) s =
      .next { s with x := s.x.set a.toNat (BitVec.ofNat 8 (255 - s.x[a.toNat].toNat)), pc := s.pc + 2 } := by
  refine execNot_next.2 ⟨hext, ha, ?_⟩
  rw [writeReg_complement]
  rfl

theorem aluApply_not_of_lt (src : Byte) (hext : s.extEnabled = true) (ha : a.toNat < 8) :
    aluApply .not .not a src s =
      .next { s with x := s.x.set a.toNat (BitVec.ofNat 8 (255 - s.x[a.toNat].toNat)) } := by
  refine aluApply_eq_next.2 ⟨aluSupports_of_ext .not hext, ha, ha, ?_⟩
  rw [aluCompute, aluWrite_value, writeReg_complement]
  rfl

theorem aluApply_not_of_ge (src : Byte) (hext : s.extEnabled = true) (ha : 8 ≤ a.toNat) :
    aluApply .not .not a src s = .fault (.addressError s.pc (some 0x69#8) (.register a)) :=
  aluInstr_eq_fault.1 (aluInstr_of_dest_ge (aluSupports_of_ext .not hext) ha)

/-- Settles O23: by the ALU's one effect, in which NOT's second index does not occur. -/
theorem notComplementsOneRegister : Obligations.NotComplementsOneRegister := by
  intro s a hext
  refine ⟨exec_not_of_lt hext, fun ha => ?_, fun ha src => aluApply_not_of_lt src hext ha,
    fun ha src => aluApply_not_of_ge src hext ha⟩
  exact exec_of_registerFault (by rw [hext]; rfl) ((registerFault_cons_of_ge ha).2 rfl)

end Sys2Proof.Machine

/-! SUPPORT. The stack instructions and the jumps (R200, R203, R222, R230): the state each leaves for a valid register
byte; any other faults in its check. -/

namespace Sys2Proof.Machine

variable {s : State} {r : Byte}

/-- SP is decremented modulo 256, as a write to register 7 (R59, R23). -/
theorem decSp_eq_set (s : State) : s.decSp = { s with x := s.x.set 7 (s.x[7] - 1#8) } := by
  rw [decSp_eq, State.writeReg, truncByte_toNat_sub_one]
  rfl

/-- The operand of PUSH and CALL, read after SP is decremented (D12). -/
theorem decSp_reg_eq_getElem (h : r.toNat < 8) :
    s.decSp.reg ⟨r.toNat, h⟩ = if r = 7#8 then s.x[7] - 1#8 else s.x[r.toNat] := by
  rw [decSp_reg_operand h, regOf_of_lt h]
  rfl

theorem exec_push_of_lt (h : r.toNat < 8) :
    exec (.push r) s = .next { s with
      x := s.x.set 7 (s.x[7] - 1#8)
      mem := s.mem.store (s.x[7] - 1#8).toNat (if r = 7#8 then s.x[7] - 1#8 else s.x[r.toNat])
      pc := s.pc + 2 } := by
  refine execPush_next.2 ⟨h, ?_⟩
  rw [decSp_reg_eq_getElem h, decSp_sp, decSp_eq_set]
  rfl

/-- Settles O24: the operand is read after SP is decremented, and a byte that names no register faults in its check. -/
theorem pushStoresBelowTheStackPointer : Obligations.PushStoresBelowTheStackPointer :=
  fun _ _ => ⟨exec_push_of_lt, withReg_of_ge⟩

theorem exec_call_of_lt (h : r.toNat < 8) :
    exec (.call r) s = .next { s with
      x := s.x.set 7 (s.x[7] - 1#8)
      mem := s.mem.store (s.x[7] - 1#8).toNat (BitVec.ofNat 8 (s.pc + 2))
      pc := (if r = 7#8 then s.x[7] - 1#8 else s.x[r.toNat]).toNat } := by
  refine execCall_next.2 ⟨h, ?_⟩
  rw [decSp_reg_eq_getElem h, decSp_sp, decSp_eq_set]
  rfl

/-- Settles O26: the target is read after SP is decremented, and a byte that names no register faults in its check. -/
theorem callPushesTheReturnAddress : Obligations.CallPushesTheReturnAddress :=
  fun _ _ => ⟨exec_call_of_lt, withReg_of_ge⟩

/-- The registers POP leaves: SP is incremented after the destination is written, and may be it (R203, D12). -/
theorem set_set_sp (x : Vector Byte 8) (v : Byte) (h : r.toNat < 8) :
    (x.set r.toNat v).set 7 ((x.set r.toNat v)[7] + 1#8) =
      if r = 7#8 then x.set 7 (v + 1#8) else (x.set r.toNat v).set 7 (x[7] + 1#8) := by
  split
  next hr => subst hr; simp
  next hr =>
    have hne : r.toNat ≠ 7 := fun he => hr (BitVec.eq_of_toNat_eq he)
    rw [Vector.getElem_set_ne _ _ hne]

theorem exec_pop_of_lt (h : r.toNat < 8) :
    exec (.pop r) s = .next { s with
      x := if r = 7#8 then s.x.set 7 (s.byteAt s.x[7].toNat + 1#8)
           else (s.x.set r.toNat (s.byteAt s.x[7].toNat)).set 7 (s.x[7] + 1#8)
      pc := s.pc + 2 } := by
  refine execPop_next.2 ⟨h, ?_⟩
  rw [incSp_eq_set, writeReg_toNat, ← set_set_sp s.x _ h]
  rfl

/-- Settles O25: SP is incremented after the destination is written, and a byte that names no register faults in its
check. -/
theorem popLoadsFromTheStackPointer : Obligations.PopLoadsFromTheStackPointer :=
  fun _ _ => ⟨exec_pop_of_lt, withReg_of_ge⟩

theorem exec_jmp_of_lt (hext : s.extEnabled = true) (h : r.toNat < 8) :
    exec (.jmp r) s = .next { s with pc := s.x[r.toNat].toNat } := execJmp_next.2 ⟨hext, h, rfl⟩

theorem exec_jeq_of_lt (hext : s.extEnabled = true) (h : r.toNat < 8) :
    exec (.jeq r) s = .next { s with pc := if s.fl.getLsbD 0 = true then s.x[r.toNat].toNat else s.pc + 2 } := by
  refine execJeq_next.2 ⟨hext, h, ?_⟩
  rw [State.flagE]
  split <;> rfl

theorem exec_jne_of_lt (hext : s.extEnabled = true) (h : r.toNat < 8) :
    exec (.jne r) s = .next { s with pc := if s.fl.getLsbD 0 = true then s.pc + 2 else s.x[r.toNat].toNat } := by
  refine execJne_next.2 ⟨hext, h, ?_⟩
  rw [State.flagE]
  split <;> rfl

/-- Settles O28: taken and not taken for a valid register byte, and any other faults before the flag is read. -/
theorem jumpsGoToTheRegister : Obligations.JumpsGoToTheRegister := by
  refine fun s r hext => ⟨fun h => ⟨exec_jmp_of_lt hext h, exec_jeq_of_lt hext h, exec_jne_of_lt hext h⟩, fun h => ?_⟩
  have hfault : ∀ m, RegisterFault m s [r] (.addressError s.pc (some (opcodeMap m)) (.register r)) :=
    fun m => (registerFault_cons_of_ge h).2 rfl
  exact ⟨exec_of_registerFault (by rw [hext]; rfl) (hfault .jmp), exec_of_registerFault (by rw [hext]; rfl) (hfault .jeq),
    exec_of_registerFault (by rw [hext]; rfl) (hfault .jne)⟩

/-- A register write reduces its value modulo 256 (R25). -/
theorem truncByte_toNat_eq_emod (v : Int) : ((truncByte v).toNat : Int) = v % 256 := by
  rw [truncByte, BitVec.toNat_ofInt, Int.toNat_of_nonneg (Int.emod_nonneg v (by decide))]
  rfl

/-- Settles O40: the register written holds the reduced value, the others are kept. -/
theorem registerWriteReducesModulo256 : Obligations.RegisterWriteReducesModulo256 := by
  refine fun s i v => ⟨?_, fun j hj => reg_writeReg_other s i j v hj⟩
  rw [reg_writeReg_same, truncByte_toNat_eq_emod]

end Sys2Proof.Machine

/-! SUPPORT. What no instruction reads: FL beyond its E bit (R33), and the earlier output (R270). Both are one statement
about a machine with another FL and more output. -/

namespace Sys2Proof.Machine

variable {s : State} {f : Byte} {o : List Byte} {m : Mnemonic}

/-- The machine with FL replaced by `f` and the elements `o` emitted before its own. -/
def State.withFlOut (s : State) (f : Byte) (o : List Byte) : State := { s with fl := f, out := o ++ s.out }

/-- A checked operand reads neither: the outcomes correspond if the continuations do. -/
theorem withReg_withFlOut {r : Byte} {k k' : RegIdx → Result} {g : State → State} (hk : ∀ d, k' d = mapNext g (k d)) :
    withReg m r (s.withFlOut f o) k' = mapNext g (withReg m r s k) := by
  by_cases h : r.toNat < 8
  · rw [withReg_of_lt h, withReg_of_lt h, hk]
  · rw [withReg_of_ge (Nat.le_of_not_lt h), withReg_of_ge (Nat.le_of_not_lt h)]
    rfl

theorem requireExt_withFlOut {k k' : Result} {g : State → State} (hk : k' = mapNext g k) :
    requireExt m (s.withFlOut f o) k' = mapNext g (requireExt m s k) := by
  have hext : (s.withFlOut f o).extEnabled = s.extEnabled := rfl
  cases h : s.extEnabled
  · rw [requireExt_of_false h, requireExt_of_false (hext.trans h)]
    rfl
  · rw [requireExt_of_true h, requireExt_of_true (hext.trans h), hk]

/-- The ALU reads neither, and CMP overwrites FL. -/
theorem aluApply_withFlOut (op : AluOp) (a b : Byte) :
    aluApply m op a b (s.withFlOut f o) =
      mapNext (fun t => t.withFlOut (if op = .cmp then t.fl else f) o) (aluApply m op a b s) := by
  have hext : (s.withFlOut f o).extEnabled = s.extEnabled := rfl
  unfold aluApply
  rw [hext]
  split
  · exact withReg_withFlOut fun _ => withReg_withFlOut fun _ => by cases op <;> rfl
  · rfl

theorem aluInstr_withFlOut (op : AluOp) (a b : Byte) :
    aluInstr m op a b (s.withFlOut f o) =
      mapNext (fun t => t.withFlOut (if op = .cmp then t.fl else f) o) (aluInstr m op a b s) := by
  unfold aluInstr
  rw [aluApply_withFlOut]
  cases aluApply m op a b s <;> rfl

/-- A two-register EXT ALU instruction, or NOT. -/
theorem extAlu_withFlOut (op : AluOp) (a b : Byte) :
    requireExt m (s.withFlOut f o) (aluInstr m op a b (s.withFlOut f o)) =
      mapNext (fun t => t.withFlOut (if op = .cmp then t.fl else f) o) (requireExt m s (aluInstr m op a b s)) :=
  requireExt_withFlOut (aluInstr_withFlOut op a b)

theorem emit_withFlOut (v : Byte) : (s.withFlOut f o).emit v = (s.emit v).withFlOut f o := by
  simp [State.withFlOut, State.emit]

/-- With the same E bit every instruction runs alike, whatever the rest of FL and the earlier output. -/
theorem exec_withFlOut (i : Instr) (hE : f.getLsbD 0 = s.fl.getLsbD 0) :
    exec i (s.withFlOut f o) =
      mapNext (fun t => t.withFlOut (if i.mnemonic = .cmp then t.fl else f) o) (exec i s) := by
  have hflagE : (s.withFlOut f o).flagE = s.flagE := hE
  cases i with
  | hlt => rfl
  | ldi => exact withReg_withFlOut fun _ => rfl
  | prn => exact withReg_withFlOut fun _ => by rw [emit_withFlOut]; rfl
  | add | mul => exact aluInstr_withFlOut _ _ _
  | push | call => exact withReg_withFlOut fun _ => by rw [withPush_eq, withPush_eq]; rfl
  | pop => exact withReg_withFlOut fun _ => by rw [withPop_eq, withPop_eq]; rfl
  | ret => rw [exec, exec, execRet, execRet, withPop_eq, withPop_eq]; rfl
  | sub | cmp | and | or | xor | not | shl | shr => exact extAlu_withFlOut _ _ _
  | jmp => exact requireExt_withFlOut (withReg_withFlOut fun _ => rfl)
  | jeq | jne =>
    refine requireExt_withFlOut (withReg_withFlOut fun _ => ?_)
    rw [hflagE]
    cases s.flagE <;> rfl

theorem mapNext_congr {g g' : State → State} {r : Result} (h : ∀ t, r = .next t → g t = g' t) :
    mapNext g r = mapNext g' r := by
  cases r with
  | next t => exact congrArg _ (h t rfl)
  | fault f => rfl
  | refused q => rfl

/-- Settles O38: with no output added. -/
theorem onlyTheEqualFlagIsRead : Obligations.OnlyTheEqualFlagIsRead := by
  refine fun i s f hE => (exec_withFlOut (o := []) i hE).trans (mapNext_congr fun t _ => ?_)
  by_cases hi : i.mnemonic = .cmp
  · rw [if_pos hi, if_pos hi]; rfl
  · rw [if_neg hi, if_neg hi]; rfl

/-- With FL as it is, only the earlier output differs. -/
theorem exec_withOut (i : Instr) (s : State) (o : List Byte) :
    exec i { s with out := o ++ s.out } = mapNext (fun t => { t with out := o ++ t.out }) (exec i s) := by
  refine (exec_withFlOut (f := s.fl) (o := o) i rfl).trans (mapNext_congr fun t ht => ?_)
  by_cases hi : i.mnemonic = .cmp
  · rw [if_pos hi]; rfl
  · rw [if_neg hi, ← exec_fl_of_ne_cmp ht hi]; rfl

/-- Settles O39: neither the end of the run nor the fetch reads the output, and no instruction does. -/
theorem outputIsNeverReadBack : Obligations.OutputIsNeverReadBack := by
  intro s o
  have hfetch : fetchInstr { s with out := o ++ s.out } = fetchInstr s := rfl
  have hend : endOfRun { s with out := o ++ s.out } = (endOfRun s).map (mapNext fun t => { t with out := o ++ t.out }) := by
    have houtcome : State.outcome { s with out := o ++ s.out } = s.outcome := rfl
    unfold endOfRun
    rw [houtcome]
    cases s.outcome <;> rfl
  unfold step
  rw [hend, hfetch]
  cases endOfRun s with
  | some r => rfl
  | none =>
    cases fetchInstr s with
    | error f => rfl
    | ok i => exact exec_withOut i s o

end Sys2Proof.Machine

/-! SUPPORT. Memory: an accepted write, canonical memories as the sets of their cells, and loading a program (R53, R282,
log 11). -/

namespace Sys2Proof.Machine

variable {m m' : Memory}

/-- A write that succeeds is in range and stores the reduced value (R51, R53). -/
theorem write_eq_ok_inv {a : Nat} {v : Int} (h : m.write a v = .ok m') :
    a < Config.memSize ∧ m' = m.store a (truncByte v) := by
  by_cases ha : a < Config.memSize
  · rw [write_eq_ok ha] at h
    cases h
    exact ⟨ha, rfl⟩
  · rw [write_eq_error (Nat.le_of_not_lt ha)] at h
    cases h

/-- Settles O42: by the laws of a load after a store, and of the empty memory. -/
theorem memoryReadsTheLastWrite : Obligations.MemoryReadsTheLastWrite := by
  refine ⟨fun m m' a v hwf h => ?_, fun _ _ a ha => read_eq_ok ha⟩
  obtain ⟨ha, rfl⟩ := write_eq_ok_inv h
  refine ⟨wf_store _ hwf ha, ?_, fun b hb => ?_⟩
  · rw [read_eq_ok ha, load_store_same a _ hwf]
    rfl
  · rw [Memory.read, Memory.read, load_store_other m _ hb]

/-- The cells of a canonical memory are the addresses that read other than blank, with what they read. -/
theorem mem_iff_load (h : m.wf) (a : Nat) (v : Byte) : (a, v) ∈ m ↔ m.load a = v ∧ v ≠ Config.memBlank := by
  induction m with
  | nil => simp [Memory.load, eq_comm]
  | cons p rest ih =>
    obtain ⟨k, w⟩ := p
    have hw : w ≠ Config.memBlank := (h.2 _ List.mem_cons_self).1
    by_cases ha : a = k
    · subst ha
      have hrest : (a, v) ∉ rest := fun hmem => Nat.lt_irrefl a ((List.pairwise_cons.1 h.1).1 _ hmem)
      simp only [List.mem_cons, hrest, or_false, Memory.load, if_true, Prod.mk.injEq, true_and]
      constructor
      · rintro rfl; exact ⟨rfl, hw⟩
      · rintro ⟨rfl, -⟩; rfl
    · simp only [List.mem_cons, Prod.mk.injEq, ha, false_and, false_or, Memory.load, if_false]
      exact ih (wf_tail h)

theorem nodup_of_wf (h : m.wf) : m.Nodup := h.1.imp fun hlt he => absurd hlt (by simp [he])

/-- Settles O43: memories that read alike have the same cells, and their order is fixed. -/
theorem memoriesThatReadAlikeAreEqual : Obligations.MemoriesThatReadAlikeAreEqual := by
  intro m m' h h' hload
  have hperm : m.Perm m' := (List.perm_ext_iff_of_nodup (nodup_of_wf h) (nodup_of_wf h')).2 fun ⟨a, v⟩ => by
    rw [mem_iff_load h, mem_iff_load h', hload]
  exact hperm.eq_of_pairwise (fun _ _ _ _ hab hba => absurd hab (Nat.lt_asymm hba)) h.1 h'.1

theorem loadBytes_of_le {s : State} {program : List Byte} (h : program.length ≤ Config.memSize) :
    s.loadBytes program = .ok { s with mem := Memory.storeList s.mem 0 program } := if_pos h

theorem loadBytes_of_gt {s : State} {program : List Byte} (h : Config.memSize < program.length) :
    s.loadBytes program = .error (.memory Config.memSize) := if_neg (Nat.not_le.2 h)

/-- A program's bytes read back from address 0, and every other address as before. -/
theorem load_storeList_zero (bs : List Byte) (k : Nat) (h : m.wf) (hlen : bs.length ≤ Config.memSize) :
    (m.storeList 0 bs).load k = if hk : k < bs.length then bs[k] else m.load k := by
  rw [load_storeList 0 k bs h (by rwa [Nat.zero_add])]
  simp

/-- Settles O55: the bytes placed read back, and the host asks for them before the first step alone. -/
theorem loadBytesWritesFromAddressZero : Obligations.LoadBytesWritesFromAddressZero := by
  refine ⟨fun s seq hwf => ⟨fun hlen => ?_, fun hlen => loadBytes_of_gt hlen⟩, fun h seq => ⟨fun hstarted hlen => ?_, rfl⟩⟩
  · exact ⟨_, loadBytes_of_le hlen, rfl, wf_storeList 0 seq hwf (by rwa [Nat.zero_add]),
      fun k => load_storeList_zero seq k hwf hlen⟩
  · refine ⟨_, loadBytes_of_le hlen, ?_⟩
    simp [Session.loadBytes, hstarted, loadBytes_of_le hlen]

end Sys2Proof.Machine

/-! SUPPORT. What the stack instructions do to SP, memory and pc, and from it PUSH and POP in a row (R206), a pushed byte
that is fetched (R64), and a comparison followed by a jump (R233, R236). -/

namespace Sys2Proof.Machine

variable {s t u : State} {r : Byte}

/-- A byte that names a register other than SP. -/
theorem regOf_ne_spIndex (hr : r.toNat < 8) (hne : r ≠ 7#8) : regOf r ≠ Config.spIndex := by
  rw [regOf_of_lt hr]
  exact fun he => hne ((index_eq_spIndex hr).1 he)

/-- PUSH stores one byte at the decremented SP, that of the register if it is not SP (R200). -/
theorem exec_push_effect (h : exec (.push r) s = .next t) :
    t.sp = s.sp - 1#8 ∧ ∃ v, t.mem = s.mem.store (s.sp - 1#8).toNat v ∧ (r ≠ 7#8 → v = s.reg (regOf r)) := by
  obtain ⟨hr, rfl⟩ := execPush_next.1 h
  refine ⟨decSp_sp s, _, by rw [← decSp_sp]; rfl, fun hne => ?_⟩
  rw [← regOf_of_lt hr, decSp_reg_of_ne (regOf_ne_spIndex hr hne)]

/-- POP into a register other than SP takes the byte at SP, and then increments SP (R203). -/
theorem exec_pop_effect (h : exec (.pop r) s = .next t) (hne : r ≠ 7#8) :
    t.sp = s.sp + 1#8 ∧ t.mem = s.mem ∧ t.reg (regOf r) = s.byteAt s.sp.toNat := by
  obtain ⟨hr, rfl⟩ := execPop_next.1 h
  have hsp : (s.writeReg ⟨r.toNat, hr⟩ (s.mem.load s.sp.toNat).toNat).sp = s.sp :=
    reg_writeReg_operand hr (regOf_ne_spIndex hr hne).symm
  refine ⟨?_, rfl, ?_⟩
  · exact (incSp_sp _).trans (by rw [hsp])
  · rw [advance_reg, incSp_reg_of_ne (regOf_ne_spIndex hr hne), regOf_of_lt hr, reg_writeReg_same, truncByte_toNat]
    rfl

/-- CALL stores the return address at the decremented SP (R222). -/
theorem exec_call_effect (h : exec (.call r) s = .next t) :
    t.sp = s.sp - 1#8 ∧ t.mem = s.mem.store (s.sp - 1#8).toNat (BitVec.ofNat 8 (s.pc + 2)) := by
  obtain ⟨_, rfl⟩ := execCall_next.1 h
  exact ⟨decSp_sp s, by rw [← decSp_sp]; rfl⟩

/-- RET goes to the byte at SP and increments SP (R225). -/
theorem exec_ret_effect (h : exec .ret s = .next t) :
    t.pc = (s.byteAt s.sp.toNat).toNat ∧ t.sp = s.sp + 1#8 ∧ t.mem = s.mem := by
  obtain rfl := execRet_next.1 h
  exact ⟨rfl, incSp_sp s, rfl⟩

/-- Settles O45: the byte PUSH stored is the one at SP, where POP reads it and leaves it. -/
theorem pushThenPopMovesTheValue : Obligations.PushThenPopMovesTheValue := by
  intro s t u a b hwf ha hb hpush hpop
  obtain ⟨hspt, v, hmemt, hv⟩ := exec_push_effect hpush
  obtain ⟨hspu, hmemu, hreg⟩ := exec_pop_effect hpop hb
  have hcell : t.byteAt (s.sp - 1#8).toNat = s.reg (regOf a) := by
    rw [State.byteAt, hmemt, load_store_same _ _ hwf, hv ha]
  refine ⟨?_, ?_, ?_⟩
  · rw [hreg, hspt, hcell]
  · rw [hspu, hspt, BitVec.sub_add_cancel]
  · rw [State.byteAt, hmemu]
    exact hcell

/-- Settles O44: the window after the PUSH is the pushed byte and two bytes the PUSH left alone. -/
theorem pushedByteIsFetchedNext : Obligations.PushedByteIsFetchedNext := by
  intro s t r i rest hwf hr hpush hpc hrun hw hd
  have hne : r ≠ 7#8 := fun he => by rw [he] at hr; exact absurd hr (by decide)
  obtain ⟨-, v, hmem, hv⟩ := exec_push_effect hpush
  rw [← decSp_sp, ← hpc, hv hne] at hmem
  have hcell : t.byteAt t.pc = s.reg (regOf r) := by rw [State.byteAt, hmem, load_store_same _ _ hwf]
  have hother : ∀ k, t.byteAt (t.pc + (k + 1)) = s.byteAt (t.pc + (k + 1)) := fun k => by
    rw [State.byteAt, hmem, load_store_other _ _ (by omega)]
    rfl
  refine stepRunsTheDecodedInstruction t i rest hrun hw ?_
  rw [State.window, hcell, hother 0, hother 1]
  exact hd

/-- The E bit of a comparison is the equality of its operands (R164). -/
theorem cmpFlags_getLsbD_zero (va vb : Byte) : (cmpFlags va vb).getLsbD 0 = decide (va = vb) := by
  have heq : va = vb ↔ va.toNat = vb.toNat := BitVec.toNat_eq
  rw [cmpFlags_eq]
  split
  next hlt => simp [heq, hlt.ne]
  next hnlt =>
    split
    next hgt => simp [heq, hgt.ne']
    next hngt => simp [heq, Nat.le_antisymm (Nat.le_of_not_lt hngt) (Nat.le_of_not_lt hnlt)]

/-- After a comparison E is the equality of the two registers (R164). -/
theorem exec_cmp_flagE {a b : Byte} (h : exec (.cmp a b) s = .next t) :
    t.fl.getLsbD 0 = decide (s.reg (regOf a) = s.reg (regOf b)) := by
  obtain ⟨-, ha, hb, rfl⟩ := execCmp_next.1 h
  rw [advance_fl, setFl_fl, cmpFlags_getLsbD_zero, regOf_of_lt ha, regOf_of_lt hb]

/-- Settles O46: both jumps follow the sequencing table on the E bit of the comparison, which keeps the registers. -/
theorem conditionalJumpFollowsTheComparison : Obligations.ConditionalJumpFollowsTheComparison := by
  intro s t u a b r hcmp
  have hE := exec_cmp_flagE hcmp
  have hreg : t.reg (regOf r) = s.reg (regOf r) := exec_reg_of_not_mem_destRegs hcmp (List.not_mem_nil)
  have hpc : t.pc = s.pc + 3 := pcFollowsTheSequencingTable _ s t hcmp
  refine ⟨fun hjump => ?_, fun hjump => ?_⟩
  · rw [pcFollowsTheSequencingTable _ t u hjump]
    simp only [tablePc, hE, hreg, hpc, decide_eq_true_iff, Nat.add_assoc, Nat.reduceAdd]
  · rw [pcFollowsTheSequencingTable _ t u hjump]
    simp only [tablePc, hE, hreg, hpc, decide_eq_false_iff_not, ite_not, Nat.add_assoc, Nat.reduceAdd]

end Sys2Proof.Machine

/-! SUPPORT. Code with balanced stack use (R207, R239, R240): what it keeps, the two brackets that extend it (PUSH and POP,
CALL and RET), and the returns of calls. -/

namespace Sys2Proof.Machine

variable {s s₁ s₂ t u : State} {d d₁ d₂ : Nat} {r : Byte}

/-- From `s` to `t` SP is kept, and of memory all but the `d` cells below it; a canonical memory stays one. -/
structure KeepsStack (d : Nat) (s t : State) : Prop where
  sp : t.sp = s.sp
  memWf : s.mem.wf → t.mem.wf
  byteAt : ∀ a : Byte, (∀ k : Nat, 1 ≤ k → k ≤ d → a ≠ s.sp - BitVec.ofNat 8 k) → t.byteAt a.toNat = s.byteAt a.toNat

theorem KeepsStack.of_eq (hsp : t.sp = s.sp) (hmem : t.mem = s.mem) : KeepsStack 0 s t where
  sp := hsp
  memWf := by rw [hmem]; exact id
  byteAt a _ := by rw [State.byteAt, State.byteAt, hmem]

theorem KeepsStack.mono (h : KeepsStack d₁ s t) (hd : d₁ ≤ d₂) : KeepsStack d₂ s t where
  sp := h.sp
  memWf := h.memWf
  byteAt a ha := h.byteAt a fun k h1 hk => ha k h1 (hk.trans hd)

theorem KeepsStack.trans (h₁ : KeepsStack d s t) (h₂ : KeepsStack d t u) : KeepsStack d s u where
  sp := h₂.sp.trans h₁.sp
  memWf := h₂.memWf ∘ h₁.memWf
  byteAt a ha := by
    rw [h₂.byteAt a (by rwa [h₁.sp]), h₁.byteAt a ha]

theorem sub_one_sub_ofNat (v : Byte) (k : Nat) : v - 1#8 - BitVec.ofNat 8 k = v - BitVec.ofNat 8 (k + 1) := by
  apply BitVec.eq_of_toNat_eq
  simp only [BitVec.toNat_sub, BitVec.toNat_ofNat]
  omega

theorem sub_ofNat_ne_self (v : Byte) {k : Nat} (h1 : 1 ≤ k) (hk : k ≤ 255) : v - BitVec.ofNat 8 k ≠ v := by
  intro h
  have hv := v.isLt
  have h := congrArg BitVec.toNat h
  simp only [BitVec.toNat_sub, BitVec.toNat_ofNat] at h
  omega

/-- A byte pushed, code that keeps the stack below it, and SP taken back: one cell deeper. -/
theorem KeepsStack.bracket {v : Byte} (hsp₁ : s₁.sp = s.sp - 1#8) (hmem₁ : s₁.mem = s.mem.store (s.sp - 1#8).toNat v)
    (h : KeepsStack d s₁ s₂) (hsp₂ : t.sp = s₂.sp + 1#8) (hmem₂ : t.mem = s₂.mem) : KeepsStack (d + 1) s t where
  sp := by rw [hsp₂, h.sp, hsp₁, BitVec.sub_add_cancel]
  memWf hwf := by
    rw [hmem₂]
    exact h.memWf (by rw [hmem₁]; exact wf_store v hwf (byte_lt_memSize _))
  byteAt a ha := by
    have hdeeper : ∀ k : Nat, 1 ≤ k → k ≤ d → a ≠ s₁.sp - BitVec.ofNat 8 k := by
      intro k _ hk he
      refine ha (k + 1) (by omega) (by omega) ?_
      rw [he, hsp₁, sub_one_sub_ofNat]
    have hcell : a.toNat ≠ (s.sp - 1#8).toNat := fun he => ha 1 (by omega) (by omega) (BitVec.eq_of_toNat_eq he)
    calc t.byteAt a.toNat = s₂.byteAt a.toNat := by rw [State.byteAt, hmem₂]; rfl
      _ = s₁.byteAt a.toNat := h.byteAt a hdeeper
      _ = s.byteAt a.toNat := by rw [State.byteAt, hmem₁, load_store_other _ _ hcell]; rfl

/-- The byte just pushed is not among the at most 255 cells below it. -/
theorem KeepsStack.byteAt_sp (h : KeepsStack d s t) (hd : d ≤ 255) : t.byteAt t.sp.toNat = s.byteAt s.sp.toNat := by
  rw [h.sp]
  exact h.byteAt s.sp fun k h1 hk => (sub_ofNat_ne_self s.sp h1 (hk.trans hd)).symm

theorem execList_cons_next {i : Instr} {rest : List Instr} :
    execList (i :: rest) s = .next t ↔ ∃ u, exec i s = .next u ∧ execList rest u = .next t := by
  rw [execList]
  cases exec i s <;> simp

theorem execList_append_next {l₁ l₂ : List Instr} :
    execList (l₁ ++ l₂) s = .next t ↔ ∃ u, execList l₁ s = .next u ∧ execList l₂ u = .next t := by
  induction l₁ generalizing s with
  | nil => simp [execList]
  | cons i rest ih =>
    simp only [List.cons_append, execList_cons_next, ih]
    constructor
    · rintro ⟨v, hv, w, hw, ht⟩; exact ⟨w, ⟨v, hv, hw⟩, ht⟩
    · rintro ⟨w, ⟨v, hv, hw⟩, ht⟩; exact ⟨v, hv, w, hw, ht⟩

theorem execList_singleton_next {i : Instr} : execList [i] s = .next t ↔ exec i s = .next t := by
  rw [execList_cons_next]
  simp [execList]

/-- An instruction that leaves the stack alone stores nothing. -/
theorem storedAt_of_leavesStack {i : Instr} (h : leavesStack i = true) : storedAt s i = none := by
  cases i
  case push | call => cases h
  all_goals rfl

/-- Balanced code keeps the stack but for the cells it uses, however deep (R207). -/
theorem keepsStack_of_balanced {body : List Instr} (hb : Balanced d body) :
    ∀ {s t}, execList body s = .next t → KeepsStack d s t := by
  induction hb with
  | nil => intro s t h; cases h; exact .of_eq rfl rfl
  | plain i hl hd =>
    intro s t h
    rw [execList_singleton_next] at h
    exact .of_eq (exec_reg_of_not_mem_destRegs h hd) (exec_mem_of_storedAt_none h (storedAt_of_leavesStack hl))
  | pair r r' d body hr' _ ih =>
    intro s t h
    obtain ⟨s₁, hpush, h⟩ := execList_cons_next.1 h
    obtain ⟨s₂, hbody, hpop⟩ := execList_append_next.1 h
    obtain ⟨hsp₁, v, hmem₁, -⟩ := exec_push_effect hpush
    obtain ⟨hsp₂, hmem₂, -⟩ := exec_pop_effect (execList_singleton_next.1 hpop) hr'
    exact .bracket hsp₁ hmem₁ (ih hbody) hsp₂ hmem₂
  | seq d₁ d₂ l₁ l₂ _ _ ih₁ ih₂ =>
    intro s t h
    obtain ⟨u, h₁, h₂⟩ := execList_append_next.1 h
    exact ((ih₁ h₁).mono (le_max_left _ _)).trans ((ih₂ h₂).mono (le_max_right _ _))

/-- Settles O47: by what balanced code keeps, which does not need the bound on its depth. -/
theorem balancedCodeKeepsTheStack : Obligations.BalancedCodeKeepsTheStack := by
  intro d body s t hb _ hwf h
  have hk := keepsStack_of_balanced hb h
  exact ⟨hk.sp, hk.memWf hwf, hk.byteAt⟩

/-- A CALL, code that keeps the stack and its return cell, and RET keep the stack one cell deeper (R239). -/
theorem keepsStack_of_call (hcall : exec (.call r) s = .next s₁) (h : KeepsStack d s₁ t) (hret : exec .ret t = .next u) :
    KeepsStack (d + 1) s u := by
  obtain ⟨hsp₁, hmem₁⟩ := exec_call_effect hcall
  obtain ⟨-, hsp, hmem⟩ := exec_ret_effect hret
  exact .bracket hsp₁ hmem₁ h hsp hmem

/-- RET resumes after the CALL whose return cell was kept (R239). -/
theorem pc_of_call_ret (hwf : s.mem.wf) (hw : WindowInMemory s) (hcall : exec (.call r) s = .next s₁)
    (h : KeepsStack d s₁ t) (hd : d ≤ 255) (hret : exec .ret t = .next u) : u.pc = s.pc + 2 := by
  obtain ⟨hsp₁, hmem₁⟩ := exec_call_effect hcall
  obtain ⟨hpc, -⟩ := exec_ret_effect hret
  have hcell : s₁.byteAt s₁.sp.toNat = BitVec.ofNat 8 (s.pc + 2) := by
    rw [State.byteAt, hmem₁, hsp₁, load_store_same _ _ hwf]
  rw [hpc, h.byteAt_sp hd, hcell, BitVec.toNat_ofNat]
  exact Nat.mod_eq_of_lt hw

/-- Settles O48: balanced code keeps the return cell. -/
theorem callReturnsToTheCallSite : Obligations.CallReturnsToTheCallSite := by
  intro d body s s₁ t u r hwf hw hd hb hcall hbody hret
  have hk := keepsStack_of_balanced hb hbody
  exact ⟨pc_of_call_ret hwf hw hcall hk hd hret, (keepsStack_of_call hcall hk hret).sp⟩

/-- Settles O49: the inner call with its callee keeps the stack as balanced code does, one cell deeper. -/
theorem nestedCallsReturnInLifoOrder : Obligations.NestedCallsReturnInLifoOrder := by
  intro d₁ d₂ d₃ l₁ l₂ l₃ s s₁ s₂ s₃ s₄ s₅ s₆ s₇ r r' hwf hw hw₂ hd₁ hd₂ hd₃ hb₁ hb₂ hb₃ hcall h₁ hcall' h₂ hret' h₃ hret
  have hk₁ := keepsStack_of_balanced hb₁ h₁
  have hk₂ := keepsStack_of_balanced hb₂ h₂
  have hk₃ := keepsStack_of_balanced hb₃ h₃
  have hinner : KeepsStack (d₂ + 1) s₂ s₅ := keepsStack_of_call hcall' hk₂ hret'
  have houter : KeepsStack 255 s₁ s₆ := ((hk₁.mono hd₁).trans (hinner.mono (by omega))).trans (hk₃.mono hd₃)
  have hwf₂ : s₂.mem.wf := hk₁.memWf (exec_keeps_mem_wf hcall hwf)
  exact ⟨pc_of_call_ret hwf₂ hw₂ hcall' hk₂ (by omega) hret', pc_of_call_ret hwf hw hcall houter (by omega) hret,
    (keepsStack_of_call hcall houter hret).sp⟩

end Sys2Proof.Machine

/-! SUPPORT. The host's run (R111) and the rendering of the output (R135). -/

namespace Sys2Proof.Machine

/-- Settles O58: by induction on the fuel, each running machine taking one step more. -/
theorem runStepsUntilTheEnd : Obligations.RunStepsUntilTheEnd := by
  intro n
  induction n with
  | zero => exact fun h => ⟨0, Nat.le_refl 0, rfl, nofun, nofun⟩
  | succ n ih =>
    intro h
    by_cases hr : h.machine.outcome = .running
    · obtain ⟨k, hk, hrun, hbefore, hend⟩ := ih h.step
      refine ⟨k + 1, Nat.succ_le_succ hk, ?_, ?_, fun hlt => hend (Nat.lt_of_succ_lt_succ hlt)⟩
      · rw [Session.run, if_pos hr, hrun, Function.iterate_succ_apply]
      · rintro (_ | j) hj
        · exact hr
        · exact hbefore j (Nat.lt_of_succ_lt_succ hj)
    · exact ⟨0, Nat.zero_le _, if_neg hr, nofun, fun _ => hr⟩

/-- The digits of a byte by its size: one, two or three. -/
theorem decimalDigits_cases (v : Byte) :
    (v.toNat < 10 ∧ decimalDigits v = [v.toNat]) ∨
    ((10 ≤ v.toNat ∧ v.toNat < 100) ∧ decimalDigits v = [v.toNat / 10, v.toNat % 10]) ∨
    (100 ≤ v.toNat ∧ decimalDigits v = [v.toNat / 100, v.toNat / 10 % 10, v.toNat % 10]) := by
  unfold decimalDigits
  split_ifs with h₁ h₂
  · exact .inl ⟨h₁, rfl⟩
  · exact .inr (.inl ⟨⟨Nat.le_of_not_lt h₁, h₂⟩, rfl⟩)
  · exact .inr (.inr ⟨Nat.le_of_not_lt h₂, rfl⟩)

/-- The digits are a decimal numeral of the byte (R135). -/
theorem decimalDigits_foldl (v : Byte) : (decimalDigits v).foldl (fun acc d => 10 * acc + d) 0 = v.toNat := by
  obtain ⟨-, hd⟩ | ⟨-, hd⟩ | ⟨-, hd⟩ := decimalDigits_cases v <;>
    · simp only [hd, List.foldl_cons, List.foldl_nil]
      omega

theorem decimalDigits_lt (v : Byte) : ∀ d ∈ decimalDigits v, d < 10 := by
  have hv := v.isLt
  obtain ⟨h, hd⟩ | ⟨h, hd⟩ | ⟨h, hd⟩ := decimalDigits_cases v <;>
    · simp only [hd, List.forall_mem_cons, List.not_mem_nil, false_imp_iff, implies_true, and_true]
      omega

/-- A numeral of more than one digit starts with another digit than 0 (R135). -/
theorem decimalDigits_head?_ne_zero (v : Byte) (hlen : 1 < (decimalDigits v).length) :
    (decimalDigits v).head? ≠ some 0 := by
  obtain ⟨-, hd⟩ | ⟨h, hd⟩ | ⟨h, hd⟩ := decimalDigits_cases v
  · rw [hd] at hlen
    exact absurd hlen (Nat.lt_irrefl 1)
  all_goals
    simp only [hd, List.head?_cons, ne_eq, Option.some.injEq]
    omega

theorem decimalDigits_ne_nil (v : Byte) : decimalDigits v ≠ [] := by
  obtain ⟨-, hd⟩ | ⟨-, hd⟩ | ⟨-, hd⟩ := decimalDigits_cases v <;> simp [hd]

/-- Settles O59: each property of the digits by their number. -/
theorem outputIsRenderedInDecimal : Obligations.OutputIsRenderedInDecimal :=
  fun v _ => ⟨decimalDigits_foldl v, decimalDigits_lt v, decimalDigits_head?_ne_zero v, decimalDigits_ne_nil v, rfl⟩

end Sys2Proof.Machine
